-- ==== Sys2Proof/Word.lean ====
section
/-! DEFINITION. The widths of the machine's values (00_scope.md R2): names for the bit-vector types the spec treats as
bits, and the type of a register index. -/

namespace Sys2Proof

/-- 8-bit data: a register, a timer, a byte of memory (`XLEN`, R2). -/
abbrev Byte := BitVec 8

/-- A 16-bit value: an instruction word, `I`, `pc`, a stack entry (`ILEN`, `I_WIDTH`, `PC_WIDTH`, R2). -/
abbrev Word := BitVec 16

/-- The 12-bit immediate address `nnn` of an instruction word (R62). -/
abbrev Addr := BitVec 12

/-- The index of a general register; an instruction can name all of 0..15 (R10). -/
abbrev Reg := Fin 16

end Sys2Proof
end

