-- ==== Sys2Proof/Machine/Flags.lean ====
section
/-! DEFINITION. Every flag computation of the spec (10_state.md R14): what each flag-writing instruction gives to SetFlag,
from the operands as they were before any write (41_alu.md R100). The collision flag is Framebuffer.draw's. -/

namespace Sys2Proof.Machine

/-- Carry of `ADD Vx, Vy`: the 9-bit unsigned sum exceeds 255 (R107). -/
def carryFlag (a b : Byte) : Bool := decide (255 < a.toNat + b.toNat)

/-- No-borrow flag of `a - b` (`SUB`, and `SUBN` with its operands exchanged): strictly greater (R108, R110, R114). -/
def greaterFlag (a b : Byte) : Bool := decide (b.toNat < a.toNat)

/-- The bit shifted out by `SHR`: bit 0 (R109). -/
def shiftedOutRight (a : Byte) : Bool := a.getLsbD 0

/-- The bit shifted out by `SHL`: bit 7 (R111). -/
def shiftedOutLeft (a : Byte) : Bool := a.getLsbD 7

end Sys2Proof.Machine
end

