-- ==== Sys2Proof/Syntax.lean ====
section
/-! DEFINITION. The instructions: one constructor per row of spec/opcode_table.json, in the table's order (30_encoding.md
R66). Operands are the fields the decoder extracts (R62): `x`, `y` register indexes, `kk` the immediate byte, `nnn` the
12-bit address, `n` the sprite height. -/

namespace Sys2Proof

/-- The 36 operation ids with their operands (R65, R66). -/
inductive Instr where
  /-- row 1, `00E0`: `CLS` (R131) -/
  | cls
  /-- row 2, `00EE`: `RET` (R84) -/
  | ret
  /-- row 3, `0nnn`: `SYS addr` (R83) -/
  | sys (nnn : Addr)
  /-- row 4, `1nnn`: `JP addr` (R86) -/
  | jp (nnn : Addr)
  /-- row 5, `2nnn`: `CALL addr` (R87) -/
  | call (nnn : Addr)
  /-- row 6, `3xkk`: `SE Vx, byte` (R88) -/
  | seImm (x : Reg) (kk : Byte)
  /-- row 7, `4xkk`: `SNE Vx, byte` (R89) -/
  | sneImm (x : Reg) (kk : Byte)
  /-- row 8, `5xy0`: `SE Vx, Vy` (R90) -/
  | seReg (x y : Reg)
  /-- row 9, `6xkk`: `LD Vx, byte` (R101) -/
  | ldImm (x : Reg) (kk : Byte)
  /-- row 10, `7xkk`: `ADD Vx, byte` (R102) -/
  | addImm (x : Reg) (kk : Byte)
  /-- row 11, `8xy0`: `LD Vx, Vy` (R103) -/
  | ldReg (x y : Reg)
  /-- row 12, `8xy1`: `OR Vx, Vy` (R104) -/
  | orReg (x y : Reg)
  /-- row 13, `8xy2`: `AND Vx, Vy` (R105) -/
  | andReg (x y : Reg)
  /-- row 14, `8xy3`: `XOR Vx, Vy` (R106) -/
  | xorReg (x y : Reg)
  /-- row 15, `8xy4`: `ADD Vx, Vy` (R107) -/
  | addReg (x y : Reg)
  /-- row 16, `8xy5`: `SUB Vx, Vy` (R108) -/
  | subReg (x y : Reg)
  /-- row 17, `8xy6`: `SHR Vx`; `y` is decoded and ignored (R109, R71) -/
  | shr (x y : Reg)
  /-- row 18, `8xy7`: `SUBN Vx, Vy` (R110) -/
  | subnReg (x y : Reg)
  /-- row 19, `8xyE`: `SHL Vx`; `y` is decoded and ignored (R111, R71) -/
  | shl (x y : Reg)
  /-- row 20, `9xy0`: `SNE Vx, Vy` (R91) -/
  | sneReg (x y : Reg)
  /-- row 21, `Annn`: `LD I, addr` (R120) -/
  | ldI (nnn : Addr)
  /-- row 22, `Bnnn`: `JP V0, addr` (R92) -/
  | jpV0 (nnn : Addr)
  /-- row 23, `Cxkk`: `RND Vx, byte` (R112) -/
  | rnd (x : Reg) (kk : Byte)
  /-- row 24, `Dxyn`: `DRW Vx, Vy, n` (R133) -/
  | drw (x y : Reg) (n : Fin 16)
  /-- row 25, `Ex9E`: `SKP Vx` (R141) -/
  | skp (x : Reg)
  /-- row 26, `ExA1`: `SKNP Vx` (R142) -/
  | sknp (x : Reg)
  /-- row 27, `Fx07`: `LD Vx, DT` (R145) -/
  | ldVxDT (x : Reg)
  /-- row 28, `Fx0A`: `LD Vx, K` (R143) -/
  | ldVxK (x : Reg)
  /-- row 29, `Fx15`: `LD DT, Vx` (R146) -/
  | ldDTVx (x : Reg)
  /-- row 30, `Fx18`: `LD ST, Vx` (R147) -/
  | ldSTVx (x : Reg)
  /-- row 31, `Fx1E`: `ADD I, Vx` (R121) -/
  | addI (x : Reg)
  /-- row 32, `Fx29`: `LD F, Vx` (R122) -/
  | ldF (x : Reg)
  /-- row 33, `Fx33`: `LD B, Vx` (R123) -/
  | ldB (x : Reg)
  /-- row 34, `Fx55`: `LD [I], Vx` (R124) -/
  | ldMemVx (x : Reg)
  /-- row 35, `Fx65`: `LD Vx, [I]` (R125) -/
  | ldVxMem (x : Reg)
  /-- row 36, any word no earlier row matches: raw data, `DW word` (R93) -/
  | dw (word : Word)
  deriving DecidableEq, Repr

end Sys2Proof
end

