-- ==== Sys2Proof/WellFormed.lean ====
section
/-! DEFINITION. Which instruction terms some word encodes. The operand types already bound every field, so only two rows
need a check: `SYS addr`, two of whose words belong to earlier rows (30_encoding.md R67), and raw data, which is what no
instruction row matches (R69). -/

namespace Sys2Proof

/-- The illegal words, written from the list of 30_encoding.md R69 (leading nibble, then the rest of the word). -/
def isRawData (w : Word) : Bool :=
  let op := w.toNat / 4096
  let lowNibble := w.toNat % 16
  let lowByte := w.toNat % 256
  (op == 0x5 && lowNibble != 0) ||
  (op == 0x8 && [0x8, 0x9, 0xA, 0xB, 0xC, 0xD, 0xF].contains lowNibble) ||
  (op == 0x9 && lowNibble != 0) ||
  (op == 0xE && !([0x9E, 0xA1].contains lowByte)) ||
  (op == 0xF && !([0x07, 0x0A, 0x15, 0x18, 0x1E, 0x29, 0x33, 0x55, 0x65].contains lowByte))

/-- An instruction some word of memory decodes to: `SYS` does not take the words of `CLS` and `RET` (R67), raw data is one
of the illegal words (R69), and every other term is well formed whatever its operands (R12, R63). -/
def Instr.wf : Instr → Bool
  | .sys nnn => nnn != 0x0E0#12 && nnn != 0x0EE#12
  | .dw w => isRawData w
  | .cls | .ret | .jp _ | .call _ | .seImm _ _ | .sneImm _ _ | .seReg _ _ | .ldImm _ _ | .addImm _ _ | .ldReg _ _
  | .orReg _ _ | .andReg _ _ | .xorReg _ _ | .addReg _ _ | .subReg _ _ | .shr _ _ | .subnReg _ _ | .shl _ _
  | .sneReg _ _ | .ldI _ | .jpV0 _ | .rnd _ _ | .drw _ _ _ | .skp _ | .sknp _ | .ldVxDT _ | .ldVxK _ | .ldDTVx _
  | .ldSTVx _ | .addI _ | .ldF _ | .ldB _ | .ldMemVx _ | .ldVxMem _ => true

end Sys2Proof
end

