-- ==== Sys2Proof/Decode.lean ====
section
/-! DEFINITION. The decoder: operand extraction by per-kind mask and shift (30_encoding.md R62), the opcode table in
declaration order (R66) and first-match decoding (R64); then the encoder, written from the formats of R61. The bit patterns
are the spec's general knowledge (G2, G3; log 1). -/

namespace Sys2Proof

/-- The closed enumeration of operand kinds (R62). -/
inductive OperandKind where
  | registerX | registerY | nibble | byte | address
  | indexRegister | register0 | delayTimer | soundTimer | fontPointer | bcdPointer | keyWait
  | rawData
  deriving DecidableEq, Repr

/-- The (mask, shift) pair of a kind that carries a value; symbolic kinds carry none (R62). -/
def OperandKind.maskShift : OperandKind → Option (Word × Nat)
  | .registerX => some (0x0F00#16, 8)
  | .registerY => some (0x00F0#16, 4)
  | .nibble => some (0x000F#16, 0)
  | .byte => some (0x00FF#16, 0)
  | .address => some (0x0FFF#16, 0)
  | .rawData => some (0xFFFF#16, 0)
  | .indexRegister | .register0 | .delayTimer | .soundTimer | .fontPointer | .bcdPointer | .keyWait => none

/-- `(w & mask) >> shift`, the value of an operand of this kind (R62). -/
def extract (k : OperandKind) (w : Word) : Word :=
  match k.maskShift with
  | some (mask, shift) => (w &&& mask) >>> shift
  | none => 0#16

/-- Field `x`: `w[11:8]`. -/
def fieldX (w : Word) : Reg := Fin.ofNat 16 (extract .registerX w).toNat
/-- Field `y`: `w[7:4]`. -/
def fieldY (w : Word) : Reg := Fin.ofNat 16 (extract .registerY w).toNat
/-- Field `n`: `w[3:0]`. -/
def fieldN (w : Word) : Fin 16 := Fin.ofNat 16 (extract .nibble w).toNat
/-- Field `kk`: `w[7:0]`. -/
def fieldKK (w : Word) : Byte := BitVec.ofNat 8 (extract .byte w).toNat
/-- Field `nnn`: `w[11:0]`. -/
def fieldNNN (w : Word) : Addr := BitVec.ofNat 12 (extract .address w).toNat

/-- One entry of the opcode table (R65): bit mask, pattern, mnemonic, operand kinds, and the instruction it stands for. -/
structure OpcodeRow where
  mask : Word
  pattern : Word
  mnemonic : String
  kinds : List OperandKind
  make : Word → Instr

/-- `(word & mask) == pattern` (R64). -/
def rowMatches (r : OpcodeRow) (w : Word) : Bool := (w &&& r.mask) == r.pattern

/-- Rows 1 to 10 of R66. -/
def opcodeRows1 : List OpcodeRow := [
  ⟨0xFFFF#16, 0x00E0#16, "CLS", [], fun _ => .cls⟩,
  ⟨0xFFFF#16, 0x00EE#16, "RET", [], fun _ => .ret⟩,
  ⟨0xF000#16, 0x0000#16, "SYS addr", [.address], fun w => .sys (fieldNNN w)⟩,
  ⟨0xF000#16, 0x1000#16, "JP addr", [.address], fun w => .jp (fieldNNN w)⟩,
  ⟨0xF000#16, 0x2000#16, "CALL addr", [.address], fun w => .call (fieldNNN w)⟩,
  ⟨0xF000#16, 0x3000#16, "SE Vx, byte", [.registerX, .byte], fun w => .seImm (fieldX w) (fieldKK w)⟩,
  ⟨0xF000#16, 0x4000#16, "SNE Vx, byte", [.registerX, .byte], fun w => .sneImm (fieldX w) (fieldKK w)⟩,
  ⟨0xF00F#16, 0x5000#16, "SE Vx, Vy", [.registerX, .registerY], fun w => .seReg (fieldX w) (fieldY w)⟩,
  ⟨0xF000#16, 0x6000#16, "LD Vx, byte", [.registerX, .byte], fun w => .ldImm (fieldX w) (fieldKK w)⟩,
  ⟨0xF000#16, 0x7000#16, "ADD Vx, byte", [.registerX, .byte], fun w => .addImm (fieldX w) (fieldKK w)⟩]

/-- Rows 11 to 20 of R66. -/
def opcodeRows2 : List OpcodeRow := [
  ⟨0xF00F#16, 0x8000#16, "LD Vx, Vy", [.registerX, .registerY], fun w => .ldReg (fieldX w) (fieldY w)⟩,
  ⟨0xF00F#16, 0x8001#16, "OR Vx, Vy", [.registerX, .registerY], fun w => .orReg (fieldX w) (fieldY w)⟩,
  ⟨0xF00F#16, 0x8002#16, "AND Vx, Vy", [.registerX, .registerY], fun w => .andReg (fieldX w) (fieldY w)⟩,
  ⟨0xF00F#16, 0x8003#16, "XOR Vx, Vy", [.registerX, .registerY], fun w => .xorReg (fieldX w) (fieldY w)⟩,
  ⟨0xF00F#16, 0x8004#16, "ADD Vx, Vy", [.registerX, .registerY], fun w => .addReg (fieldX w) (fieldY w)⟩,
  ⟨0xF00F#16, 0x8005#16, "SUB Vx, Vy", [.registerX, .registerY], fun w => .subReg (fieldX w) (fieldY w)⟩,
  ⟨0xF00F#16, 0x8006#16, "SHR Vx", [.registerX], fun w => .shr (fieldX w) (fieldY w)⟩,
  ⟨0xF00F#16, 0x8007#16, "SUBN Vx, Vy", [.registerX, .registerY], fun w => .subnReg (fieldX w) (fieldY w)⟩,
  ⟨0xF00F#16, 0x800E#16, "SHL Vx", [.registerX], fun w => .shl (fieldX w) (fieldY w)⟩,
  ⟨0xF00F#16, 0x9000#16, "SNE Vx, Vy", [.registerX, .registerY], fun w => .sneReg (fieldX w) (fieldY w)⟩]

/-- Rows 21 to 26 of R66. -/
def opcodeRows3 : List OpcodeRow := [
  ⟨0xF000#16, 0xA000#16, "LD I, addr", [.indexRegister, .address], fun w => .ldI (fieldNNN w)⟩,
  ⟨0xF000#16, 0xB000#16, "JP V0, addr", [.register0, .address], fun w => .jpV0 (fieldNNN w)⟩,
  ⟨0xF000#16, 0xC000#16, "RND Vx, byte", [.registerX, .byte], fun w => .rnd (fieldX w) (fieldKK w)⟩,
  ⟨0xF000#16, 0xD000#16, "DRW Vx, Vy, n", [.registerX, .registerY, .nibble],
    fun w => .drw (fieldX w) (fieldY w) (fieldN w)⟩,
  ⟨0xF0FF#16, 0xE09E#16, "SKP Vx", [.registerX], fun w => .skp (fieldX w)⟩,
  ⟨0xF0FF#16, 0xE0A1#16, "SKNP Vx", [.registerX], fun w => .sknp (fieldX w)⟩]

/-- Rows 27 to 35 of R66. -/
def opcodeRows4 : List OpcodeRow := [
  ⟨0xF0FF#16, 0xF007#16, "LD Vx, DT", [.registerX, .delayTimer], fun w => .ldVxDT (fieldX w)⟩,
  ⟨0xF0FF#16, 0xF00A#16, "LD Vx, K", [.registerX, .keyWait], fun w => .ldVxK (fieldX w)⟩,
  ⟨0xF0FF#16, 0xF015#16, "LD DT, Vx", [.delayTimer, .registerX], fun w => .ldDTVx (fieldX w)⟩,
  ⟨0xF0FF#16, 0xF018#16, "LD ST, Vx", [.soundTimer, .registerX], fun w => .ldSTVx (fieldX w)⟩,
  ⟨0xF0FF#16, 0xF01E#16, "ADD I, Vx", [.indexRegister, .registerX], fun w => .addI (fieldX w)⟩,
  ⟨0xF0FF#16, 0xF029#16, "LD F, Vx", [.fontPointer, .registerX], fun w => .ldF (fieldX w)⟩,
  ⟨0xF0FF#16, 0xF033#16, "LD B, Vx", [.bcdPointer, .registerX], fun w => .ldB (fieldX w)⟩,
  ⟨0xF0FF#16, 0xF055#16, "LD [I], Vx", [.indexRegister, .registerX], fun w => .ldMemVx (fieldX w)⟩,
  ⟨0xF0FF#16, 0xF065#16, "LD Vx, [I]", [.registerX, .indexRegister], fun w => .ldVxMem (fieldX w)⟩]

/-- Rows 1 to 35 of R66: the instructions. -/
def instructionRows : List OpcodeRow := opcodeRows1 ++ opcodeRows2 ++ opcodeRows3 ++ opcodeRows4

/-- Row 36 of R66: the catch-all with mask 0 and pattern 0. -/
def rawDataRow : OpcodeRow := ⟨0x0000#16, 0x0000#16, "DW word", [.rawData], fun w => .dw (extract .rawData w)⟩

/-- The opcode table, in declaration order (R66). -/
def opcodeTable : List OpcodeRow := instructionRows ++ [rawDataRow]

/-- The first entry that matches the word (R64); the catch-all stands last, so `none` is never the answer (R68). -/
def decode (w : Word) : Instr :=
  match opcodeTable.find? (rowMatches · w) with
  | some r => r.make w
  | none => .dw w

/-- Why bytes give no instruction. Every word decodes (R64); only a byte stream that ends before a whole word is refused. -/
inductive DecodeError where
  /-- fewer than the two bytes of a word (R60) -/
  | truncated
  deriving DecidableEq, Repr

/-- The 16-bit word of two bytes, the one at the lower address in the high half (20_memory.md R40). -/
def wordOfBytes (hi lo : Byte) : Word := hi ++ lo

/-- The byte of a word that lies at the lower address (20_memory.md R40). -/
def highByte (w : Word) : Byte := w.extractLsb' 8 8

/-- The byte of a word that lies at the higher address (20_memory.md R40). -/
def lowByte (w : Word) : Byte := w.extractLsb' 0 8

/-- The instruction at the head of a byte stream, and the bytes after it (R60, R40). -/
def decodeBytes : List Byte → Except DecodeError (Instr × List Byte)
  | hi :: lo :: rest => .ok (decode (wordOfBytes hi lo), rest)
  | [_] | [] => .error .truncated

/-- A register index as the 4-bit field of a word (R61). -/
def regField (x : Fin 16) : BitVec 4 := BitVec.ofNat 4 x.val

/-- Format A (R61): opcode, address. -/
def formatA (op : BitVec 4) (nnn : Addr) : Word := op ++ nnn
/-- Format XK (R61): opcode, register, byte. -/
def formatXK (op : BitVec 4) (x : Reg) (kk : Byte) : Word := op ++ regField x ++ kk
/-- Formats XY and XYN (R61): opcode, two registers, sub-opcode or height. -/
def formatXYN (op : BitVec 4) (x y : Reg) (n : BitVec 4) : Word := op ++ regField x ++ regField y ++ n

/-- The word of an instruction (R61, R66). -/
def encode : Instr → Word
  | .cls => 0x00E0#16
  | .ret => 0x00EE#16
  | .sys nnn => formatA 0x0#4 nnn
  | .jp nnn => formatA 0x1#4 nnn
  | .call nnn => formatA 0x2#4 nnn
  | .seImm x kk => formatXK 0x3#4 x kk
  | .sneImm x kk => formatXK 0x4#4 x kk
  | .seReg x y => formatXYN 0x5#4 x y 0x0#4
  | .ldImm x kk => formatXK 0x6#4 x kk
  | .addImm x kk => formatXK 0x7#4 x kk
  | .ldReg x y => formatXYN 0x8#4 x y 0x0#4
  | .orReg x y => formatXYN 0x8#4 x y 0x1#4
  | .andReg x y => formatXYN 0x8#4 x y 0x2#4
  | .xorReg x y => formatXYN 0x8#4 x y 0x3#4
  | .addReg x y => formatXYN 0x8#4 x y 0x4#4
  | .subReg x y => formatXYN 0x8#4 x y 0x5#4
  | .shr x y => formatXYN 0x8#4 x y 0x6#4
  | .subnReg x y => formatXYN 0x8#4 x y 0x7#4
  | .shl x y => formatXYN 0x8#4 x y 0xE#4
  | .sneReg x y => formatXYN 0x9#4 x y 0x0#4
  | .ldI nnn => formatA 0xA#4 nnn
  | .jpV0 nnn => formatA 0xB#4 nnn
  | .rnd x kk => formatXK 0xC#4 x kk
  | .drw x y n => formatXYN 0xD#4 x y (regField n)
  | .skp x => formatXK 0xE#4 x 0x9E#8
  | .sknp x => formatXK 0xE#4 x 0xA1#8
  | .ldVxDT x => formatXK 0xF#4 x 0x07#8
  | .ldVxK x => formatXK 0xF#4 x 0x0A#8
  | .ldDTVx x => formatXK 0xF#4 x 0x15#8
  | .ldSTVx x => formatXK 0xF#4 x 0x18#8
  | .addI x => formatXK 0xF#4 x 0x1E#8
  | .ldF x => formatXK 0xF#4 x 0x29#8
  | .ldB x => formatXK 0xF#4 x 0x33#8
  | .ldMemVx x => formatXK 0xF#4 x 0x55#8
  | .ldVxMem x => formatXK 0xF#4 x 0x65#8
  | .dw w => w

/-- The bytes of an instruction as memory holds them: big-endian (R40). -/
def encodeBytes (i : Instr) : List Byte := [highByte (encode i), lowByte (encode i)]

/-- The word the opcode table numbers by `w`: its low `nbits` bits, the others 0. -/
def tableWord (nbits w : Nat) : Word := BitVec.ofNat 16 (w % 2 ^ nbits)

/-- What the decoder reads from an instruction of the opcode table, given as the table numbers its bits: the word's bytes in
the order memory holds them (R40), given to `decodeBytes`. -/
def decodeTableWord (nbits w : Nat) : Option Instr :=
  match decodeBytes [highByte (tableWord nbits w), lowByte (tableWord nbits w)] with
  | .ok (i, _) => some i
  | .error _ => none

end Sys2Proof
end

