-- ==== Sys2Proof/Config.lean ====
section
/-! DEFINITION. What the spec leaves open (00_scope.md R3): the shapes of the host's answers, and the FREE VALUES a draw
takes when the host has lined up no answer of its own. A free value is an opaque constant: nothing can be proved of it, so
a statement that mentions one holds for every value. -/

namespace Sys2Proof

/-- The answer of `KeyWait()` (44_keyboard_timers.md R144): a digit 0..15 or the quit sentinel. -/
inductive KeyAnswer where
  | key (digit : Fin 16)
  | quitSentinel
  deriving DecidableEq, Repr, Inhabited

/-- One sample of the key inputs (44_keyboard_timers.md R140): bit N of `mask` is set when key N is down; `quit` is the
1-bit quit input, sampled together with the mask (D16). -/
structure KeySample where
  mask : BitVec 16
  quit : Bool
  deriving DecidableEq, Repr, Inhabited

/-- RANDOM_SOURCE (R113, D18): the byte of the free draw with this serial number. Free value: log 14. -/
opaque Config.freeRandom : Nat → Byte

/-- KEY_MASK (R140, D16): the key mask of the free sample with this serial number. Free value: log 12. -/
opaque Config.freeKeyMask : Nat → BitVec 16

/-- QUIT (R140, D16): the quit bit of the free sample with this serial number. Free value: log 12. -/
opaque Config.freeQuit : Nat → Bool

/-- KEYWAIT_SOURCE (R144, D17): the answer of the free key wait with this serial number. Free value: log 13. -/
opaque Config.freeKeyAnswer : Nat → KeyAnswer

/-- TICK_SCHEDULE (R166, D14): how many timer ticks fall at the instruction boundary with this serial number. Free value:
log 15. -/
opaque Config.freeTicks : Nat → Nat

end Sys2Proof
end

