-- ==== Sys2Proof/Machine/State.lean ====
section
/-! DEFINITION. The machine's state as plain data (10_state.md), the inputs the host has lined up, the reasons a step can
stop, and the state after reset (R34). -/

namespace Sys2Proof.Machine

/-- Memory (R26): the bytes that differ from what an unlisted address reads as, by strictly rising address. What an
unlisted address reads as is `resetByte` of Machine/Ops.lean. -/
abbrev Memory := List Host.Cell

/-- The framebuffer `fb[x][y]` (R30): 64 columns from left to right, each of 32 pixels from top to bottom; `true` is set
(lit). -/
abbrev Framebuffer := Vector (Vector Bool 32) 64

/-- Where the flag lives: the parameter FLAG_ALIASED (00_scope.md R3, D1; log 2) and, where it is false, the cell itself. No
instruction changes which of the two it is. -/
inductive FlagStore where
  /-- FLAG_ALIASED true, the default (R13, C5): the flag is `V[15]`, there is no cell of its own -/
  | register15
  /-- FLAG_ALIASED false (D1): a 17th cell of 1 bit that no instruction reads; `V[15]` is an ordinary register -/
  | cell (bit : Bool)
  deriving DecidableEq, Repr

/-- The inputs of the block (00_scope.md R5, 60_exceptions.md R171, R172), which are no state of the block itself (R35). A
draw takes the oldest answer the host has lined up in the list for it; where that list is empty, the draw is a free value
of Config under the next serial number. The MODEL's own field: log 16. -/
structure Inputs where
  /-- bytes lined up for `RandomByte()` (R113), oldest first -/
  randomBytes : List Byte
  /-- samples lined up for `KeyMask()` and `Quit()` (R140), oldest first -/
  keySamples : List KeySample
  /-- answers lined up for `KeyWait()` (R144), oldest first -/
  keyAnswers : List KeyAnswer
  /-- numbers of timer ticks at the coming instruction boundaries (R166), nearest first -/
  ticks : List Nat
  /-- serial number of the next free draw -/
  drawn : Nat
  /-- serial number of the next free number of ticks -/
  boundaries : Nat
  deriving DecidableEq, Repr

/-- The machine's state (10_state.md), and the inputs lined up for it. -/
structure State where
  /-- the general registers `V[0]`..`V[15]` (R10) -/
  v : Vector Byte 16
  /-- where the flag lives: in `V[15]` (R13), or in the cell of D1 -/
  flag : FlagStore
  /-- the index register `I` (R15) -/
  i : Word
  /-- the delay timer `DT` (R17) -/
  dt : Byte
  /-- the sound timer `ST` (R17) -/
  st : Byte
  /-- the program counter (R19) -/
  pc : Word
  /-- the number of call-stack entries in use, 0..16 (R22) -/
  sp : Fin 17
  /-- the call-stack RAM (R22) -/
  stack : Vector Word 16
  /-- the 4096 bytes of memory (R26) -/
  mem : Memory
  /-- the display (R30) -/
  fb : Framebuffer
  /-- the inputs lined up by the host; the MODEL's own field -/
  inputs : Inputs
  deriving DecidableEq, Repr

/-- The outcomes other than Success (60_exceptions.md R150), each with the info value of R151. A fault ends the run (R155)
and carries no state: the state is that from before the step (R153). -/
inductive Fault where
  /-- `SKP`, `SKNP` with the quit input set, `LD Vx, K` answered by the quit sentinel (R141 to R143). Not a failure: the
  run was cancelled (R156). Safe: the spec ends the run here too. -/
  | quitRequested
  /-- `SKP`, `SKNP`, `LD F` with `V[x] > 0x0F`; info `V[x]`. Safe: the spec's own error. -/
  | registerValueOutOfRange (value : Byte)
  /-- `JP`, `CALL`, `JP V0`, `RET` with a target below 0x200 or above 0xFFF, and a fetch at `pc > 0xFFE`; info the target or
  `pc`. Safe: the spec's own error, above 0xFFF by D7, D9. -/
  | programCounterOutOfRange (address : Nat)
  /-- `LD B`, `LD [I]` with `I < 0x200`; info `I`. Safe: the spec's own error. -/
  | memoryWriteGuardViolation (address : Nat)
  /-- `RET` with an empty stack. Safe: the spec's own error. -/
  | callStackUnderflow
  /-- `CALL` with 16 entries in use. Safe: the spec's own error. -/
  | callStackOverflow
  /-- a raw-data word; info the word. Safe: the spec's own error. -/
  | illegalInstruction (word : Word)
  /-- `LD B`, `LD [I]`, `LD Vx, [I]`, `DRW` whose last byte lies above 0xFFF; info that byte's address. Safe: D6. -/
  | memoryAddressOutOfRange (address : Nat)
  /-- `JP`, `CALL`, `JP V0`, `RET` with an odd target in 0x200..0xFFF; info the target. Safe: D8. -/
  | programCounterMisaligned (target : Nat)
  deriving DecidableEq, Repr

/-- What the model gives no meaning to. -/
inductive Refusal where
  /-- an instruction without a meaning yet; no arm of exec answers it. Safe. -/
  | notModelled (mnemonic : String)
  /-- reset-and-load of an image over 1792 words (70_reset_and_hazards.md R183); no step answers it. Safe. -/
  | imageTooLong (words : Nat)
  deriving DecidableEq, Repr

/-- What a step, an instruction or a host action ends in (R150). -/
abbrev Result := Host.Outcome State Fault Refusal

/-- The inputs right after reset: nothing lined up, so that every draw is free (log 16). -/
def Inputs.none : Inputs :=
  { randomBytes := [], keySamples := [], keyAnswers := [], ticks := [], drawn := 0, boundaries := 0 }

/-- The state after reset-and-load of an empty image (R34, R180), every parameter of R3 at its default: every register, timer,
stack entry and pixel zero, `pc` at 0x200, memory as it is reset, the flag in `V[15]`. -/
def State.reset : State :=
  { v := Vector.replicate 16 0#8
    flag := .register15
    i := 0#16
    dt := 0#8
    st := 0#8
    pc := 0x200#16
    sp := 0
    stack := Vector.replicate 16 0#16
    mem := []
    fb := Vector.replicate 64 (Vector.replicate 32 false)
    inputs := Inputs.none }

end Sys2Proof.Machine
end

