-- ==== Sys2Proof/Machine/Ops.lean ====
section
/-! DEFINITION. The named operations over memory, registers, stack, timers, framebuffer and inputs that every instruction is
made of, and raising an error, once (60_exceptions.md R150 to R154). -/

namespace Sys2Proof.Machine

/-! ## Memory (20_memory.md) -/

/-- Glyphs 0 to 7 of the font (10_state.md R28). -/
def fontGlyphs0to7 : List Byte := [
  0xF0#8, 0x90#8, 0x90#8, 0x90#8, 0xF0#8,  0x20#8, 0x60#8, 0x20#8, 0x20#8, 0x70#8,
  0xF0#8, 0x10#8, 0xF0#8, 0x80#8, 0xF0#8,  0xF0#8, 0x10#8, 0xF0#8, 0x10#8, 0xF0#8,
  0x90#8, 0x90#8, 0xF0#8, 0x10#8, 0x10#8,  0xF0#8, 0x80#8, 0xF0#8, 0x10#8, 0xF0#8,
  0xF0#8, 0x80#8, 0xF0#8, 0x90#8, 0xF0#8,  0xF0#8, 0x10#8, 0x20#8, 0x40#8, 0x40#8]

/-- Glyphs 8 to F of the font (10_state.md R28). -/
def fontGlyphs8toF : List Byte := [
  0xF0#8, 0x90#8, 0xF0#8, 0x90#8, 0xF0#8,  0xF0#8, 0x90#8, 0xF0#8, 0x10#8, 0xF0#8,
  0xF0#8, 0x90#8, 0xF0#8, 0x90#8, 0x90#8,  0xE0#8, 0x90#8, 0xE0#8, 0x90#8, 0xE0#8,
  0xF0#8, 0x80#8, 0x80#8, 0x80#8, 0xF0#8,  0xE0#8, 0x90#8, 0x90#8, 0x90#8, 0xE0#8,
  0xF0#8, 0x80#8, 0xF0#8, 0x80#8, 0xF0#8,  0xF0#8, 0x80#8, 0xF0#8, 0x80#8, 0x80#8]

/-- The default of FONT_TABLE (R28, D21): 16 glyphs of 5 bytes at 0x000. PRESUMED by the spec (G4): log 4. -/
def fontTable : List Byte := fontGlyphs0to7 ++ fontGlyphs8toF

/-- What an address that memory does not list reads as: the reset contents (R34), the font table at 0x000..0x04F and zero
elsewhere. -/
def resetByte (a : Nat) : Byte := fontTable.getD a 0#8

/-- The byte listed for an address, if there is one. -/
def Memory.find : Memory → Nat → Option Byte
  | [], _ => none
  | c :: m, a => if c.1 = a then some c.2 else Memory.find m a

/-- The byte at an address, without checks: `mem[a]` (R26). -/
def Memory.read (m : Memory) (a : Nat) : Byte := (Memory.find m a).getD (resetByte a)

/-- One cell in front of a memory, unless it holds what its address reads as unlisted. -/
def Memory.cell (a : Nat) (b : Byte) (m : Memory) : Memory := if b = resetByte a then m else (a, b) :: m

/-- `mem[a] <- b` without checks, keeping the canonical form. -/
def Memory.write : Memory → Nat → Byte → Memory
  | [], a, b => Memory.cell a b []
  | c :: m, a, b =>
    if a < c.1 then Memory.cell a b (c :: m)
    else if a = c.1 then Memory.cell a b m
    else c :: Memory.write m a b

/-- Bytes to rising addresses from `a` (R41). -/
def Memory.writeBytes : Memory → Nat → List Byte → Memory
  | m, _, [] => m
  | m, a, b :: bs => Memory.writeBytes (Memory.write m a b) (a + 1) bs

/-- The canonical form: addresses of the 4096-byte space strictly rising, no cell equal to what its address reads as
unlisted. -/
abbrev Memory.wf (m : Memory) : Prop :=
  m.Pairwise (fun c d => c.1 < d.1) ∧ ∀ c ∈ m, c.1 < 4096 ∧ c.2 ≠ resetByte c.1

/-- The bytes at `a`, `a+1`, ..., `a+n-1`, checked: an address above 0xFFF is `MemoryAddressOutOfRange` of the last byte
(R44, D6). Reads are never guarded. -/
def State.load (s : State) (a n : Nat) : Except Fault (List Byte) :=
  if 0 < n ∧ 0xFFF < a + n - 1 then .error (.memoryAddressOutOfRange (a + n - 1))
  else .ok ((List.range n).map fun k => Memory.read s.mem (a + k))

/-- Bytes to rising addresses from `a`, both checks before the first write: the write guard (R45, R48), then an address
above 0xFFF (D6). -/
def State.store (s : State) (a : Nat) (bs : List Byte) : Except Fault State :=
  if a < 0x200 then .error (.memoryWriteGuardViolation a)
  else if 0 < bs.length ∧ 0xFFF < a + bs.length - 1 then .error (.memoryAddressOutOfRange (a + bs.length - 1))
  else .ok { s with mem := Memory.writeBytes s.mem a bs }

/-! ## Registers, flag and program counter (10_state.md) -/

/-- `V[x]` (R10). -/
def State.getV (s : State) (x : Reg) : Byte := s.v.get x

/-- `V[x] <- b` (R10). -/
def State.setV (s : State) (x : Reg) (b : Byte) : State := { s with v := s.v.set x.val b x.isLt }

/-- The parameter FLAG_ALIASED of this machine (00_scope.md R3, D1; log 2): whether the flag is `V[15]`. -/
def State.flagAliased (s : State) : Bool :=
  match s.flag with
  | .register15 => true
  | .cell _ => false

/-- What a flag write leaves in the flag's own cell, where there is one (D1). -/
def FlagStore.write (f : FlagStore) (b : Bool) : FlagStore :=
  match f with
  | .register15 => .register15
  | .cell _ => .cell b

/-- `SetFlag(b)`: `V[15] <- zext_8(b)` (R13, C5), or, with FLAG_ALIASED false, `b` to the flag's own cell and `V[15]` as it was
(D1). Every flag write goes through here. -/
def State.setFlag (s : State) (b : Bool) : State :=
  { s with
    v := if s.flagAliased then s.v.set 15 (if b then 1#8 else 0#8) else s.v
    flag := s.flag.write b }

/-- `V[0]`, `V[1]`, ... from a list of bytes; the registers beyond the list keep their values (R125). -/
def State.setPrefix (s : State) (bs : List Byte) : State :=
  { s with v := Vector.ofFn fun k : Fin 16 => bs.getD k.val (s.v.get k) }

/-- `pc <- pc + 2` (R20). -/
def State.advance (s : State) : State := { s with pc := s.pc + 2#16 }

/-- `pc <- pc + 4` when the condition holds, else `pc <- pc + 2` (R20, R94). -/
def State.skipWhen (s : State) (c : Bool) : State := { s with pc := s.pc + (if c then 4#16 else 2#16) }

/-- `CheckTarget(t)`, answering the new `pc` (40_control_flow.md R85): below 0x200, above 0xFFF (D9), odd (D8). -/
def checkTarget (t : Nat) : Except Fault Word :=
  if t < 0x200 then .error (.programCounterOutOfRange t)
  else if 0xFFF < t then .error (.programCounterOutOfRange t)
  else if t % 2 = 1 then .error (.programCounterMisaligned t)
  else .ok (BitVec.ofNat 16 t)

/-! ## Call stack (10_state.md R22 to R24) -/

/-- `Push(v)`; `CallStackOverflow` when 16 entries are in use (R23, R87). -/
def State.push (s : State) (value : Word) : Except Fault State :=
  if h : s.sp.val < 16 then
    .ok { s with stack := s.stack.set s.sp.val value h, sp := ⟨s.sp.val + 1, Nat.succ_lt_succ h⟩ }
  else .error .callStackOverflow

/-- `Pop()`: the top entry and the state without it; `CallStackUnderflow` when none is in use (R24, R84). The popped entry
keeps its value in the RAM. -/
def State.pop (s : State) : Except Fault (Word × State) :=
  if h : 0 < s.sp.val then
    .ok (s.stack[s.sp.val - 1]'(by omega), { s with sp := ⟨s.sp.val - 1, by omega⟩ })
  else .error .callStackUnderflow

/-! ## Errors (60_exceptions.md) -/

/-- `raise <Kind>(info)`: the step ends with that outcome and nothing it wrote is kept (R153). There is no trap entry: no
vector, no saved `pc`, no mode (R154), and no return from one (R155). -/
def raise (f : Fault) : Result := .fault f

/-- The `code` of an outcome other than Success on an encoded outcome port (R150, D12). -/
def faultCode : Fault → Nat
  | .quitRequested => 1
  | .registerValueOutOfRange _ => 2
  | .programCounterOutOfRange _ => 3
  | .memoryWriteGuardViolation _ => 4
  | .callStackUnderflow => 5
  | .callStackOverflow => 6
  | .illegalInstruction _ => 7
  | .memoryAddressOutOfRange _ => 8
  | .programCounterMisaligned _ => 9

/-- The encoded outcome port (R150): 0 for Success; what the model refuses has no code. -/
def outcomeCode (r : Result) : Option Nat :=
  match r with
  | .next _ => some 0
  | .fault f => some (faultCode f)
  | .refused _ => none

/-! ## Framebuffer (43_display.md) -/

/-- `FbRead(x, y)` (R130). -/
def Framebuffer.read (fb : Framebuffer) (x : Fin 64) (y : Fin 32) : Bool := (fb.get x).get y

/-- `FbWrite(x, y, b)` (R130): overwrites, does not toggle. -/
def Framebuffer.write (fb : Framebuffer) (x : Fin 64) (y : Fin 32) (b : Bool) : Framebuffer :=
  fb.set x.val ((fb.get x).set y.val b y.isLt) x.isLt

/-- Every pixel 0 (R131). -/
def Framebuffer.clear : Framebuffer := Vector.replicate 64 (Vector.replicate 32 false)

/-- Column `c` of a sprite drawn at `x0` (R133): `(x0 + c) mod 64`. -/
def spriteColumn (x0 c : Nat) : Fin 64 := Fin.ofNat 64 (x0 + c)

/-- Row `r` of a sprite drawn at `y0` (R133): `(y0 + r) mod 32`. -/
def spriteRow (y0 r : Nat) : Fin 32 := Fin.ofNat 32 (y0 + r)

/-- The 8 pixels now on the screen where a sprite row goes, the leftmost in bit 7 (R132, R133). -/
def Framebuffer.sampleRow (fb : Framebuffer) (x0 : Nat) (y : Fin 32) : Byte :=
  BitVec.ofBool (Framebuffer.read fb (spriteColumn x0 0) y) ++ BitVec.ofBool (Framebuffer.read fb (spriteColumn x0 1) y) ++
  BitVec.ofBool (Framebuffer.read fb (spriteColumn x0 2) y) ++ BitVec.ofBool (Framebuffer.read fb (spriteColumn x0 3) y) ++
  BitVec.ofBool (Framebuffer.read fb (spriteColumn x0 4) y) ++ BitVec.ofBool (Framebuffer.read fb (spriteColumn x0 5) y) ++
  BitVec.ofBool (Framebuffer.read fb (spriteColumn x0 6) y) ++ BitVec.ofBool (Framebuffer.read fb (spriteColumn x0 7) y)

/-- The 8 pixels of a row written back, columns left to right (R133). -/
def Framebuffer.writeRow (fb : Framebuffer) (x0 : Nat) (y : Fin 32) (new : Byte) : Framebuffer :=
  (List.range 8).foldl (fun f c => Framebuffer.write f (spriteColumn x0 c) y (new.getLsbD (7 - c))) fb

/-- The sprite blit and its collision detector (R133, R134): for each row, sample, compare by AND, write back the XOR. -/
def Framebuffer.draw (fb : Framebuffer) (x0 y0 : Nat) : List Byte → Framebuffer × Bool
  | [] => (fb, false)
  | sprite :: rows =>
    let y := spriteRow y0 0
    let cur := Framebuffer.sampleRow fb x0 y
    let rest := Framebuffer.draw (Framebuffer.writeRow fb x0 y (sprite ^^^ cur)) x0 (y0 + 1) rows
    (rest.1, (sprite &&& cur) != 0#8 || rest.2)

/-! ## Timers (60_exceptions.md R165, R166) -/

/-- One decrement of a timer: a timer at 0 stays at 0 (R165, D13; log 15). -/
def decrement (t : Byte) : Byte := if t = 0#8 then 0#8 else t - 1#8

/-- One timer tick, on both timers at once (R165). -/
def State.tick (s : State) : State := { s with dt := decrement s.dt, st := decrement s.st }

/-- A timer after any number of ticks: it counts down to 0 and stays there (R165). -/
def countDown (n : Nat) (t : Byte) : Byte := if t = 0#8 then 0#8 else BitVec.ofNat 8 (t.toNat - n)

/-- Any number of timer ticks (R166). -/
def State.tickTimes (s : State) (n : Nat) : State := { s with dt := countDown n s.dt, st := countDown n s.st }

/-! ## Inputs (44_keyboard_timers.md R140, R144; 41_alu.md R113; 60_exceptions.md R166)

Each draw answers the value drawn and the inputs left. -/

/-- `RandomByte()` (R113). -/
def Inputs.randomByte (e : Inputs) : Byte × Inputs :=
  match e.randomBytes with
  | b :: rest => (b, { e with randomBytes := rest })
  | [] => (Config.freeRandom e.drawn, { e with drawn := e.drawn + 1 })

/-- `KeyMask()` and `Quit()`, sampled together (R140, D16). -/
def Inputs.keySample (e : Inputs) : KeySample × Inputs :=
  match e.keySamples with
  | k :: rest => (k, { e with keySamples := rest })
  | [] => (⟨Config.freeKeyMask e.drawn, Config.freeQuit e.drawn⟩, { e with drawn := e.drawn + 1 })

/-- `KeyWait()` (R144): the answer, which always comes (D17; log 13). -/
def Inputs.keyAnswer (e : Inputs) : KeyAnswer × Inputs :=
  match e.keyAnswers with
  | a :: rest => (a, { e with keyAnswers := rest })
  | [] => (Config.freeKeyAnswer e.drawn, { e with drawn := e.drawn + 1 })

/-- The number of ticks at this instruction boundary (R166). -/
def Inputs.tickCount (e : Inputs) : Nat × Inputs :=
  match e.ticks with
  | n :: rest => (n, { e with ticks := rest })
  | [] => (Config.freeTicks e.boundaries, { e with boundaries := e.boundaries + 1 })

/-- The instruction boundary after a successful step: the ticks that fall there (R166). -/
def State.boundary (s : State) : State :=
  { s with inputs := s.inputs.tickCount.2 }.tickTimes s.inputs.tickCount.1

/-! ## Fetch (40_control_flow.md R81) -/

/-- The word at `pc`, big-endian; `ProgramCounterOutOfRange` when its second byte would lie above 0xFFF (R81, D7). -/
def State.fetch (s : State) : Except Fault Word :=
  if 0xFFE < s.pc.toNat then .error (.programCounterOutOfRange s.pc.toNat)
  else .ok (wordOfBytes (Memory.read s.mem s.pc.toNat) (Memory.read s.mem (s.pc.toNat + 1)))

/-- The state with a word stored where the next step fetches: at `pc`, or, if nothing can be fetched there, at 0x200 with
`pc` set to it (log 23). -/
def State.placeWord (s : State) (w : Word) : State :=
  let pc := if 0xFFE < s.pc.toNat then 0x200#16 else s.pc
  { s with pc := pc, mem := Memory.writeBytes s.mem pc.toNat [highByte w, lowByte w] }

end Sys2Proof.Machine
end

