-- ==== Sys2Proof/Machine/Operands.lean ====
section
/-! DEFINITION. Every operand form of the spec: digit operands, jump targets, effective addresses, register ranges, sprite
coordinates, decimal digits. -/

namespace Sys2Proof.Machine

/-- A register used as a digit or key index: the whole 8-bit value must be at most 0x0F, nothing is masked (R122, R141, C4). -/
def State.digit (s : State) (x : Reg) : Except Fault (Fin 16) :=
  if h : (s.getV x).toNat < 16 then .ok ⟨(s.getV x).toNat, h⟩
  else .error (.registerValueOutOfRange (s.getV x))

/-- The target of `JP addr` and `CALL addr`: `zext_16(nnn)` (R86, R87). -/
def absoluteTarget (nnn : Addr) : Nat := nnn.toNat

/-- The target of `JP V0, addr`: a natural-number sum, not truncated (R92). -/
def State.offsetTarget (s : State) (nnn : Addr) : Nat := nnn.toNat + (s.getV 0).toNat

/-- The base of every data access: `EA(0) = I`, a natural number (R126). -/
def State.base (s : State) : Nat := s.i.toNat

/-- `V[0]`..`V[x]`, lowest first (R124). -/
def State.getPrefix (s : State) (x : Reg) : List Byte := s.v.toList.take (x.val + 1)

/-- Hundreds, tens and ones of a byte (R123). -/
def decimalDigits (b : Byte) : List Byte :=
  [BitVec.ofNat 8 (b.toNat / 100), BitVec.ofNat 8 (b.toNat / 10 % 10), BitVec.ofNat 8 (b.toNat % 10)]

/-- The column of a sprite's top left pixel: `V[x] mod 64` (R133). -/
def State.spriteX (s : State) (x : Reg) : Nat := (s.getV x).toNat % 64

/-- The row of a sprite's top left pixel: `V[y] mod 32` (R133). -/
def State.spriteY (s : State) (y : Reg) : Nat := (s.getV y).toNat % 32

/-- The base address of a glyph: 5 bytes each, from 0x000 (R122, D20). -/
def glyphAddress (d : Fin 16) : Word := BitVec.ofNat 16 (5 * d.val)

end Sys2Proof.Machine
end

