-- ==== Sys2Proof/Machine/Alu.lean ====
section
/-! DEFINITION. The register load, arithmetic and logic instructions (41_alu.md). -/

namespace Sys2Proof.Machine

/-- `V[x] <- r; pc <- pc + 2`. -/
def State.result (s : State) (x : Reg) (r : Byte) : Result := .next (s.setV x r).advance

/-- `SetFlag(b)` first, then `V[x] <- r; pc <- pc + 2` (R100). -/
def State.flagThenResult (s : State) (x : Reg) (b : Bool) (r : Byte) : Result := (s.setFlag b).result x r

/-- `LD Vx, byte` (R101). -/
def execLdImm (x : Reg) (kk : Byte) (s : State) : Result := s.result x kk

/-- `ADD Vx, byte` (R102): wraps, no flag. -/
def execAddImm (x : Reg) (kk : Byte) (s : State) : Result := s.result x (s.getV x + kk)

/-- `LD Vx, Vy` (R103). -/
def execLdReg (x y : Reg) (s : State) : Result := s.result x (s.getV y)

/-- `OR Vx, Vy` (R104). -/
def execOrReg (x y : Reg) (s : State) : Result := s.result x (s.getV x ||| s.getV y)

/-- `AND Vx, Vy` (R105). -/
def execAndReg (x y : Reg) (s : State) : Result := s.result x (s.getV x &&& s.getV y)

/-- `XOR Vx, Vy` (R106). -/
def execXorReg (x y : Reg) (s : State) : Result := s.result x (s.getV x ^^^ s.getV y)

/-- `ADD Vx, Vy` (R107). -/
def execAddReg (x y : Reg) (s : State) : Result :=
  s.flagThenResult x (carryFlag (s.getV x) (s.getV y)) (s.getV x + s.getV y)

/-- `SUB Vx, Vy` (R108). -/
def execSubReg (x y : Reg) (s : State) : Result :=
  s.flagThenResult x (greaterFlag (s.getV x) (s.getV y)) (s.getV x - s.getV y)

/-- `SHR Vx` (R109): `Vy` is neither read nor written. -/
def execShr (x _y : Reg) (s : State) : Result :=
  s.flagThenResult x (shiftedOutRight (s.getV x)) (s.getV x >>> 1)

/-- `SUBN Vx, Vy` (R110). -/
def execSubnReg (x y : Reg) (s : State) : Result :=
  s.flagThenResult x (greaterFlag (s.getV y) (s.getV x)) (s.getV y - s.getV x)

/-- `SHL Vx` (R111): `Vy` is neither read nor written. -/
def execShl (x _y : Reg) (s : State) : Result :=
  s.flagThenResult x (shiftedOutLeft (s.getV x)) (s.getV x <<< 1)

/-- `RND Vx, byte` (R112): a draw masked with `kk`. -/
def execRnd (x : Reg) (kk : Byte) (s : State) : Result :=
  { s with inputs := s.inputs.randomByte.2 }.result x (s.inputs.randomByte.1 &&& kk)

end Sys2Proof.Machine
end

