-- ==== Sys2Proof/Machine/Control.lean ====
section
/-! DEFINITION. The control-flow instructions and raw data (40_control_flow.md). -/

namespace Sys2Proof.Machine

/-- A checked transfer of control to `t` (R85). -/
def State.jumpTo (s : State) (t : Nat) : Result :=
  match checkTarget t with
  | .ok pc => .next { s with pc := pc }
  | .error f => raise f

/-- `SYS addr`: no operation, `nnn` ignored (R83). -/
def execSys (_nnn : Addr) (s : State) : Result := .next s.advance

/-- `RET` (R84): underflow before the target check, `pc` is the popped value itself. -/
def execRet (s : State) : Result :=
  match s.pop with
  | .ok (t, s') => s'.jumpTo t.toNat
  | .error f => raise f

/-- `JP addr` (R86). -/
def execJp (nnn : Addr) (s : State) : Result := s.jumpTo (absoluteTarget nnn)

/-- `CALL addr` (R87): the target is checked before the stack (R152); `pc + 2` is pushed. -/
def execCall (nnn : Addr) (s : State) : Result :=
  match checkTarget (absoluteTarget nnn) with
  | .error f => raise f
  | .ok pc =>
    match s.push (s.pc + 2#16) with
    | .error f => raise f
    | .ok s' => .next { s' with pc := pc }

/-- `SE Vx, byte` (R88). -/
def execSeImm (x : Reg) (kk : Byte) (s : State) : Result := .next (s.skipWhen (s.getV x == kk))

/-- `SNE Vx, byte` (R89). -/
def execSneImm (x : Reg) (kk : Byte) (s : State) : Result := .next (s.skipWhen (s.getV x != kk))

/-- `SE Vx, Vy` (R90). -/
def execSeReg (x y : Reg) (s : State) : Result := .next (s.skipWhen (s.getV x == s.getV y))

/-- `SNE Vx, Vy` (R91). -/
def execSneReg (x y : Reg) (s : State) : Result := .next (s.skipWhen (s.getV x != s.getV y))

/-- `JP V0, addr` (R92). -/
def execJpV0 (nnn : Addr) (s : State) : Result := s.jumpTo (s.offsetTarget nnn)

/-- Raw data: always `IllegalInstruction`, whatever the state (R93). -/
def execDw (w : Word) (_s : State) : Result := raise (.illegalInstruction w)

end Sys2Proof.Machine
end

