-- ==== Sys2Proof/Machine/Display.lean ====
section
/-! DEFINITION. The display instructions (43_display.md). -/

namespace Sys2Proof.Machine

/-- `CLS` (R131). -/
def execCls (s : State) : Result := .next { s with fb := Framebuffer.clear }.advance

/-- `DRW Vx, Vy, n` (R133): the coordinates are sampled before the flag is written (R100); the sprite's bytes are checked
before anything is written; the flag ends as the collision. -/
def execDrw (x y : Reg) (n : Fin 16) (s : State) : Result :=
  match s.load s.base n.val with
  | .error f => raise f
  | .ok sprite =>
    let drawn := Framebuffer.draw s.fb (s.spriteX x) (s.spriteY y) sprite
    .next ({ s with fb := drawn.1 }.setFlag drawn.2).advance

end Sys2Proof.Machine
end

