-- ==== Sys2Proof/Machine/IndexMemory.lean ====
section
/-! DEFINITION. The index-register and memory instructions (42_index_memory.md). None changes `I` but the three that load
it, none writes the flag. -/

namespace Sys2Proof.Machine

/-- A store of bytes from `I` upwards, then `pc <- pc + 2`; nothing is written on an error (R45, R153). -/
def State.storeAtBase (s : State) (bs : List Byte) : Result :=
  match s.store s.base bs with
  | .ok s' => .next s'.advance
  | .error f => raise f

/-- `LD I, addr` (R120): no range check. -/
def execLdI (nnn : Addr) (s : State) : Result := .next { s with i := nnn.setWidth 16 }.advance

/-- `ADD I, Vx` (R121): 16-bit sum, no guard, no flag (D19). -/
def execAddI (x : Reg) (s : State) : Result := .next { s with i := s.i + (s.getV x).setWidth 16 }.advance

/-- `LD F, Vx` (R122). -/
def execLdF (x : Reg) (s : State) : Result :=
  match s.digit x with
  | .ok d => .next { s with i := glyphAddress d }.advance
  | .error f => raise f

/-- `LD B, Vx` (R123). -/
def execLdB (x : Reg) (s : State) : Result := s.storeAtBase (decimalDigits (s.getV x))

/-- `LD [I], Vx` (R124). -/
def execLdMemVx (x : Reg) (s : State) : Result := s.storeAtBase (s.getPrefix x)

/-- `LD Vx, [I]` (R125): unguarded, the range checked before the first register is written. -/
def execLdVxMem (x : Reg) (s : State) : Result :=
  match s.load s.base (x.val + 1) with
  | .ok bs => .next (s.setPrefix bs).advance
  | .error f => raise f

end Sys2Proof.Machine
end

