-- ==== Sys2Proof/Machine/KeyTimer.lean ====
section
/-! DEFINITION. The keyboard and timer instructions (44_keyboard_timers.md). -/

namespace Sys2Proof.Machine

/-- `SKP` and `SKNP` (R141, R142): the range check, then one sample of mask and quit, quit before the skip; the skip is
taken when the key's bit of the mask is `wanted`. -/
def State.skipOnKey (s : State) (x : Reg) (wanted : Bool) : Result :=
  match s.digit x with
  | .error f => raise f
  | .ok k =>
    if s.inputs.keySample.1.quit then raise .quitRequested
    else .next ({ s with inputs := s.inputs.keySample.2 }.skipWhen (s.inputs.keySample.1.mask.getLsbD k.val == wanted))

/-- `SKP Vx` (R141). -/
def execSkp (x : Reg) (s : State) : Result := s.skipOnKey x true

/-- `SKNP Vx` (R142). -/
def execSknp (x : Reg) (s : State) : Result := s.skipOnKey x false

/-- `LD Vx, K` (R143): one step whose answer is a draw (D17); the quit sentinel ends the run and changes nothing. -/
def execLdVxK (x : Reg) (s : State) : Result :=
  match s.inputs.keyAnswer.1 with
  | .quitSentinel => raise .quitRequested
  | .key d => .next ({ s with inputs := s.inputs.keyAnswer.2 }.setV x (BitVec.ofNat 8 d.val)).advance

/-- `LD Vx, DT` (R145). -/
def execLdVxDT (x : Reg) (s : State) : Result := .next (s.setV x s.dt).advance

/-- `LD DT, Vx` (R146). -/
def execLdDTVx (x : Reg) (s : State) : Result := .next { s with dt := s.getV x }.advance

/-- `LD ST, Vx` (R147). -/
def execLdSTVx (x : Reg) (s : State) : Result := .next { s with st := s.getV x }.advance

end Sys2Proof.Machine
end

