-- ==== Sys2Proof/Machine/Step.lean ====
section
/-! DEFINITION. The step cycle (40_control_flow.md R80): fetch, decode, dispatch; then the instruction boundary, where the
timer agent's ticks fall (60_exceptions.md R166). -/

namespace Sys2Proof.Machine

/-- One step of the engine, and the timer ticks at the boundary after it if it succeeded. -/
def step (s : State) : Host.Outcome State Fault Refusal :=
  match s.fetch with
  | .error f => raise f
  | .ok w =>
    match exec (decode w) s with
    | .next s' => .next s'.boundary
    | .fault f => .fault f
    | .refused r => .refused r

/-- The state whose next step fetches and runs the instruction the opcode table numbers by `w`. -/
def State.withFetchWord (s : State) (nbits w : Nat) : State := s.placeWord (tableWord nbits w)

end Sys2Proof.Machine
end

