-- ==== Sys2Proof/Machine/HostPort.lean ====
section
/-! DEFINITION. The host's actions on the block (70_reset_and_hazards.md R185) other than issuing a step: reset-and-load,
lining up inputs, reading a pixel. Issuing a timer tick is State.tick. -/

namespace Sys2Proof.Machine

/-- The bytes of an image, each word big-endian (R182). -/
def imageBytes : List Word → List Byte
  | [] => []
  | w :: ws => highByte w :: lowByte w :: imageBytes ws

/-- Where the flag lives after reset on a machine with this FLAG_ALIASED (R3, D1); the flag is 0 (R14, R34). -/
def resetFlag (flagAliased : Bool) : FlagStore := if flagAliased then .register15 else .cell false

/-- `ResetAndLoad(image)` for a machine with this FLAG_ALIASED and FONT_TABLE (R3, R180, R28): the reset state, the font from
0x000, the image from 0x200. An image over 1792 words is refused (R183). -/
def resetAndLoad (flagAliased : Bool) (font : Vector Byte 80) (image : List Word) : Result :=
  if image.length ≤ 1792 then
    .next { State.reset with
      flag := resetFlag flagAliased
      mem := Memory.writeBytes (Memory.writeBytes State.reset.mem 0 font.toList) 0x200 (imageBytes image) }
  else .refused (.imageTooLong image.length)

/-- The host supplies a random byte for a coming `RND` (R185). -/
def State.supplyRandom (s : State) (b : Byte) : State :=
  { s with inputs := { s.inputs with randomBytes := s.inputs.randomBytes ++ [b] } }

/-- The host drives the key mask and the quit input, as a coming `SKP` or `SKNP` samples them (R185). -/
def State.supplyKeySample (s : State) (k : KeySample) : State :=
  { s with inputs := { s.inputs with keySamples := s.inputs.keySamples ++ [k] } }

/-- The host answers a coming key wait (R185). -/
def State.supplyKeyAnswer (s : State) (a : KeyAnswer) : State :=
  { s with inputs := { s.inputs with keyAnswers := s.inputs.keyAnswers ++ [a] } }

/-- The host schedules the number of ticks of a coming instruction boundary (R166, R185). -/
def State.scheduleTicks (s : State) (n : Nat) : State :=
  { s with inputs := { s.inputs with ticks := s.inputs.ticks ++ [n] } }

/-- The display read-out: one pixel, no effect on the block (60_exceptions.md R170). -/
def State.readPixel (s : State) (x : Fin 64) (y : Fin 32) : Bool := Framebuffer.read s.fb x y

end Sys2Proof.Machine
end

