-- ==== Sys2Proof/Safety.lean ====
section
/-! DEFINITION. What a good state and a safe step are, and the tables of the spec that claims about all instructions are
stated in: which error an instruction raises (60_exceptions.md R151, R152), which registers and bytes it may write
(10_state.md R12, R14, 20_memory.md R46), how it moves `pc` (10_state.md R20). -/

namespace Sys2Proof.Machine

/-! ## Good states -/

/-- Where `pc` can stand at an instruction boundary (R21). -/
abbrev State.PcOk (s : State) : Prop := s.pc.toNat % 2 = 0 ∧ 0x200 ≤ s.pc.toNat ∧ s.pc.toNat ≤ 0x1002

/-- What a stack entry in use can hold: "Every value CALL pushes is even and between 0x202 and 0x1000" (R84). -/
abbrev State.StackOk (s : State) : Prop := ∀ k : Fin 16, k.val < s.sp.val →
  (s.stack.get k).toNat % 2 = 0 ∧ 0x202 ≤ (s.stack.get k).toNat ∧ (s.stack.get k).toNat ≤ 0x1000

/-- The invariant of the machine: memory in its canonical form, `pc` and the entries in use as above. -/
abbrev State.Inv (s : State) : Prop := Memory.wf s.mem ∧ s.PcOk ∧ s.StackOk

/-- A step is safe when its outcome is Success (R150). -/
def State.StepsSafely (s : State) : Prop := ∃ t, step s = .next t

/-! ## Comparing outcomes -/

/-- An outcome with its next state, if it has one, changed by `f`. -/
def mapNext (f : State → State) : Result → Result
  | .next s => .next (f s)
  | .fault r => .fault r
  | .refused r => .refused r

/-- At most `V` and `pc` differ: a flag of its own, `I`, the timers, the stack, every byte of memory, every pixel and the inputs are unchanged. -/
def SameButRegsPc (s t : State) : Prop := t = { s with v := t.v, pc := t.pc }

/-- At most `V[x]` and `pc` differ. -/
def SameButRegPc (x : Reg) (s t : State) : Prop := (∀ k, k ≠ x → t.getV k = s.getV k) ∧ SameButRegsPc s t

/-- At most `V[x]`, the flag and `pc` differ; `V[15]` is the flag only with FLAG_ALIASED (log 2). -/
def SameButRegFlagPc (x : Reg) (s t : State) : Prop :=
  (∀ k, k ≠ x → (k = 15 → s.flagAliased = false) → t.getV k = s.getV k) ∧ t.flagAliased = s.flagAliased ∧
  t = { s with v := t.v, flag := t.flag, pc := t.pc }

/-! ## Operands as the opcode table lists them -/

/-- The values of an instruction's value-carrying operands, in the order of the kinds of its row (R62, R66). The `y` that `SHR`
and `SHL` decode and ignore is no operand of theirs (R71). -/
def operandValues : Instr → List Nat
  | .cls | .ret => []
  | .sys nnn | .jp nnn | .call nnn | .ldI nnn | .jpV0 nnn => [nnn.toNat]
  | .seImm x kk | .sneImm x kk | .ldImm x kk | .addImm x kk | .rnd x kk => [x.val, kk.toNat]
  | .seReg x y | .ldReg x y | .orReg x y | .andReg x y | .xorReg x y | .addReg x y | .subReg x y => [x.val, y.val]
  | .subnReg x y | .sneReg x y => [x.val, y.val]
  | .drw x y n => [x.val, y.val, n.val]
  | .shr x _ | .shl x _ | .skp x | .sknp x | .ldVxDT x | .ldVxK x | .ldDTVx x | .ldSTVx x | .addI x | .ldF x => [x.val]
  | .ldB x | .ldMemVx x | .ldVxMem x => [x.val]
  | .dw w => [w.toNat]

/-- The flag VF as a byte, wherever it lives: `V[15]` (R13), or 0x00 or 0x01 from the flag's own cell (D1). -/
def State.flagByte (s : State) : Byte :=
  match s.flag with
  | .register15 => s.getV 15
  | .cell b => if b then 1#8 else 0#8

/-! ## Which error an instruction raises (R151), in the order of R152 -/

/-- The error of a control-transfer target, if it has one (R85). -/
def targetError (t : Nat) : Option Fault :=
  if t < 0x200 ∨ 0xFFF < t then some (.programCounterOutOfRange t)
  else if t % 2 = 1 then some (.programCounterMisaligned t)
  else none

/-- The error of a data access whose last byte lies at `last`. -/
def lastByteError (last : Nat) : Option Fault := if 0xFFF < last then some (.memoryAddressOutOfRange last) else none

/-- The error of a store whose first byte lies at `first` and whose last byte at `last`. -/
def storeError (first last : Nat) : Option Fault :=
  if first < 0x200 then some (.memoryWriteGuardViolation first) else lastByteError last

/-- The error of a register used as a digit or key index. -/
def digitError (value : Byte) : Option Fault := if 0x0F < value.toNat then some (.registerValueOutOfRange value) else none

/-- The outcome of `SKP` and `SKNP` other than Success. -/
def keyError (value : Byte) (quit : Bool) : Option Fault :=
  match digitError value with
  | some f => some f
  | none => if quit then some .quitRequested else none

/-- The outcome other than Success that an instruction ends in, if it does (R151); the instructions of R158 have none. -/
def errorOf : Instr → State → Option Fault
  | .jp nnn, _ => targetError nnn.toNat
  | .call nnn, s =>
    match targetError nnn.toNat with
    | some f => some f
    | none => if s.sp.val = 16 then some .callStackOverflow else none
  | .jpV0 nnn, s => targetError (nnn.toNat + (s.getV 0).toNat)
  | .ret, s =>
    if h : s.sp.val = 0 then some .callStackUnderflow
    else targetError (s.stack[s.sp.val - 1]'(by omega)).toNat
  | .skp x, s => keyError (s.getV x) s.inputs.keySample.1.quit
  | .sknp x, s => keyError (s.getV x) s.inputs.keySample.1.quit
  | .ldVxK _, s => if s.inputs.keyAnswer.1 = .quitSentinel then some .quitRequested else none
  | .ldF x, s => digitError (s.getV x)
  | .ldB _, s => storeError s.i.toNat (s.i.toNat + 2)
  | .ldMemVx x, s => storeError s.i.toNat (s.i.toNat + x.val)
  | .ldVxMem x, s => lastByteError (s.i.toNat + x.val)
  | .drw _ _ n, s => if n.val = 0 then none else lastByteError (s.i.toNat + n.val - 1)
  | .dw w, _ => some (.illegalInstruction w)
  | .cls, _ | .sys _, _ | .seImm _ _, _ | .sneImm _ _, _ | .seReg _ _, _ | .sneReg _ _, _ => none
  | .ldImm _ _, _ | .addImm _ _, _ | .ldReg _ _, _ | .orReg _ _, _ | .andReg _ _, _ | .xorReg _ _, _ => none
  | .addReg _ _, _ | .subReg _ _, _ | .shr _ _, _ | .subnReg _ _, _ | .shl _ _, _ | .rnd _ _, _ => none
  | .ldI _, _ | .addI _, _ | .ldVxDT _, _ | .ldDTVx _, _ | .ldSTVx _, _ => none

/-! ## What an instruction may write -/

/-- The instructions that write the flag (R14). -/
def writesFlag : Instr → Bool
  | .addReg _ _ | .subReg _ _ | .shr _ _ | .subnReg _ _ | .shl _ _ | .drw _ _ _ => true
  | .cls | .ret | .sys _ | .jp _ | .call _ | .seImm _ _ | .sneImm _ _ | .seReg _ _ | .sneReg _ _ | .ldImm _ _ => false
  | .addImm _ _ | .ldReg _ _ | .orReg _ _ | .andReg _ _ | .xorReg _ _ | .ldI _ | .jpV0 _ | .rnd _ _ | .skp _ => false
  | .sknp _ | .ldVxDT _ | .ldVxK _ | .ldDTVx _ | .ldSTVx _ | .addI _ | .ldF _ | .ldB _ | .ldMemVx _ => false
  | .ldVxMem _ | .dw _ => false

/-- Whether an instruction may write general register `k`: the write rows of R12, where `V[15]` is the flag only with
FLAG_ALIASED. -/
def writesV (flagAliased : Bool) : Instr → Reg → Bool
  | .ldImm x _, k | .addImm x _, k | .ldReg x _, k | .orReg x _, k | .andReg x _, k | .xorReg x _, k => k == x
  | .rnd x _, k | .ldVxDT x, k | .ldVxK x, k => k == x
  | .addReg x _, k | .subReg x _, k | .shr x _, k | .subnReg x _, k | .shl x _, k => k == x || (k == 15 && flagAliased)
  | .drw _ _ _, k => k == 15 && flagAliased
  | .ldVxMem x, k => decide (k.val ≤ x.val)
  | .cls, _ | .ret, _ | .sys _, _ | .jp _, _ | .call _, _ | .seImm _ _, _ | .sneImm _ _, _ | .seReg _ _, _ => false
  | .sneReg _ _, _ | .ldI _, _ | .jpV0 _, _ | .skp _, _ | .sknp _, _ | .ldDTVx _, _ | .ldSTVx _, _ => false
  | .addI _, _ | .ldF _, _ | .ldB _, _ | .ldMemVx _, _ | .dw _, _ => false

/-- How many bytes an instruction stores, from address `I` upwards (R46). -/
def storeLength : Instr → Nat
  | .ldB _ => 3
  | .ldMemVx x => x.val + 1
  | .cls | .ret | .sys _ | .jp _ | .call _ | .seImm _ _ | .sneImm _ _ | .seReg _ _ | .ldImm _ _ | .addImm _ _ => 0
  | .ldReg _ _ | .orReg _ _ | .andReg _ _ | .xorReg _ _ | .addReg _ _ | .subReg _ _ | .shr _ _ | .subnReg _ _ => 0
  | .shl _ _ | .sneReg _ _ | .ldI _ | .jpV0 _ | .rnd _ _ | .drw _ _ _ | .skp _ | .sknp _ | .ldVxDT _ | .ldVxK _ => 0
  | .ldDTVx _ | .ldSTVx _ | .addI _ | .ldF _ | .ldVxMem _ | .dw _ => 0

/-- The instructions that replace `pc` outright (R20). -/
def isTransfer : Instr → Bool
  | .ret | .jp _ | .call _ | .jpV0 _ => true
  | .cls | .sys _ | .seImm _ _ | .sneImm _ _ | .seReg _ _ | .ldImm _ _ | .addImm _ _ | .ldReg _ _ | .orReg _ _ => false
  | .andReg _ _ | .xorReg _ _ | .addReg _ _ | .subReg _ _ | .shr _ _ | .subnReg _ _ | .shl _ _ | .sneReg _ _ => false
  | .ldI _ | .rnd _ _ | .drw _ _ _ | .skp _ | .sknp _ | .ldVxDT _ | .ldVxK _ | .ldDTVx _ | .ldSTVx _ | .addI _ => false
  | .ldF _ | .ldB _ | .ldMemVx _ | .ldVxMem _ | .dw _ => false

/-- The instructions that advance `pc` by 4 when their condition holds (R20). -/
def isSkip : Instr → Bool
  | .seImm _ _ | .sneImm _ _ | .seReg _ _ | .sneReg _ _ | .skp _ | .sknp _ => true
  | .cls | .ret | .sys _ | .jp _ | .call _ | .ldImm _ _ | .addImm _ _ | .ldReg _ _ | .orReg _ _ | .andReg _ _ => false
  | .xorReg _ _ | .addReg _ _ | .subReg _ _ | .shr _ _ | .subnReg _ _ | .shl _ _ | .ldI _ | .jpV0 _ | .rnd _ _ => false
  | .drw _ _ _ | .ldVxDT _ | .ldVxK _ | .ldDTVx _ | .ldSTVx _ | .addI _ | .ldF _ | .ldB _ | .ldMemVx _ => false
  | .ldVxMem _ | .dw _ => false

/-! ## Sprites, as claims speak of them (R132, R133) -/

/-- The sprite bit of row `r` and column `c`: bit `7 - c` of the byte at `I + r`. -/
def State.spriteBit (s : State) (r c : Nat) : Bool := (Memory.read s.mem (s.i.toNat + r)).getLsbD (7 - c)

/-- The screen column of sprite column `c`: `(V[x] + c) mod 64`. -/
def State.screenX (s : State) (x : Reg) (c : Nat) : Fin 64 := Fin.ofNat 64 ((s.getV x).toNat + c)

/-- The screen row of sprite row `r`: `(V[y] + r) mod 32`. -/
def State.screenY (s : State) (y : Reg) (r : Nat) : Fin 32 := Fin.ofNat 32 ((s.getV y).toNat + r)

/-- Some set bit of the `n` sprite rows meets a set pixel (R134). -/
def State.Collides (s : State) (x y : Reg) (n : Nat) : Prop := ∃ r < n, ∃ c < 8,
  s.spriteBit r c = true ∧ Framebuffer.read s.fb (s.screenX x c) (s.screenY y r) = true

end Sys2Proof.Machine
end

