-- ==== Sys2Proof/Certificates/Slice0/Obligations.lean ====
section
/-! DEFINITION. The statements for the provers: what the rules of spec/ say the machine does. A statement that rests on a
decision of the spec (D<n>) or on its general knowledge (G<n>) says so in its docstring and is listed as derived. -/

open Sys2Proof Sys2Proof.Machine

/-! ## Decoding and encoding -/

/-- Every well-formed instruction is decoded from its own word, all operands at all values. The bit patterns are the spec's
general knowledge (G2, G3; log 1). -/
def Obligations.DecodeEncodeRoundTrip : Prop := ∀ i : Instr, i.wf = true → decode (encode i) = i

/-- Every word of the 65536 decodes to a well-formed instruction, and encoding that gives the word back: no bit is dropped.
The bit patterns are the spec's general knowledge (G2, G3; log 1). -/
def Obligations.EncodeDecodeRoundTrip : Prop := ∀ w : Word, (decode w).wf = true ∧ encode (decode w) = w

/-- R64: the table is scanned in declaration order and the first entry with `(word & mask) == pattern` is the match; every
word has one, its instruction is the result, and the operands are `(word & mask) >> shift` for the entry's value-carrying
kinds. -/
def Obligations.FirstMatchDecides : Prop := ∀ w : Word, ∃ before r after,
  opcodeTable = before ++ r :: after ∧ (w &&& r.mask) = r.pattern ∧ (∀ q ∈ before, (w &&& q.mask) ≠ q.pattern) ∧
  decode w = r.make w ∧
  operandValues (decode w) = (r.kinds.filterMap OperandKind.maskShift).map fun p => ((w &&& p.1) >>> p.2).toNat

/-- R67: two different instruction rows match one word only for 0x00E0 and 0x00EE, and there the earlier row wins. -/
def Obligations.OnlyClsAndRetOverlap : Prop :=
  (∀ w : Word, ∀ r ∈ instructionRows, ∀ q ∈ instructionRows, rowMatches r w = true → rowMatches q w = true →
    r.mnemonic ≠ q.mnemonic → w = 0x00E0#16 ∨ w = 0x00EE#16) ∧
  decode 0x00E0#16 = .cls ∧ decode 0x00EE#16 = .ret

/-- R69: the words that decode to raw data are exactly those of its list, and raw data carries the word itself. -/
def Obligations.RawDataIsTheIllegalWords : Prop := ∀ w : Word,
  (isRawData w = true → decode w = .dw w) ∧ (∀ v, decode w = .dw v → isRawData w = true ∧ v = w)

/-- R62, R61: the operand fields are the slices `w[11:8]`, `w[7:4]`, `w[3:0]`, `w[7:0]`, `w[11:0]`. The positions are the
spec's general knowledge (G3; log 1). -/
def Obligations.FieldsAreSlices : Prop := ∀ w : Word,
  (fieldX w).val = w.toNat / 256 % 16 ∧ (fieldY w).val = w.toNat / 16 % 16 ∧ (fieldN w).val = w.toNat % 16 ∧
  (fieldKK w).toNat = w.toNat % 256 ∧ (fieldNNN w).toNat = w.toNat % 4096

/-- Words of 95_test_vectors.md section 2.1, one of every format at least. Sanity. -/
def Obligations.DecodeSampleWords : Prop :=
  decode 0x00E0#16 = .cls ∧ decode 0x00EE#16 = .ret ∧ decode 0x0FFF#16 = .sys 0xFFF#12 ∧ decode 0x10E0#16 = .jp 0x0E0#12 ∧
  decode 0x5120#16 = .seReg 1 2 ∧ decode 0x5121#16 = .dw 0x5121#16 ∧ decode 0x8126#16 = .shr 1 2 ∧
  decode 0xE19E#16 = .skp 1 ∧ decode 0xF10A#16 = .ldVxK 1 ∧ decode 0xDABC#16 = .drw 10 11 12 ∧
  decode 0x3AFF#16 = .seImm 10 0xFF#8 ∧ decode 0xBFFF#16 = .jpV0 0xFFF#12

/-! ## Step, fetch, reset -/

/-- R40: the word fetched at `pc` is `mem[pc]*256 + mem[pc+1]`, and word `k` of a loaded image is stored the same way at
`0x200 + 2k`. -/
def Obligations.FetchAndImageAreBigEndian : Prop :=
  (∀ s : State, s.pc.toNat ≤ 0xFFE → ∃ w, s.fetch = .ok w ∧
    w.toNat = (Memory.read s.mem s.pc.toNat).toNat * 256 + (Memory.read s.mem (s.pc.toNat + 1)).toNat) ∧
  (∀ (aliased : Bool) (font : Vector Byte 80) (image : List Word) (s : State), resetAndLoad aliased font image = .next s →
    ∀ (k : Nat) (h : k < image.length), (image[k]).toNat =
      (Memory.read s.mem (0x200 + 2 * k)).toNat * 256 + (Memory.read s.mem (0x200 + 2 * k + 1)).toNat)

/-- R80, R166: when the two bytes at `pc` decode to `i`, the step is `exec i` on that state, its error or its next state; a
next state is followed by the timer ticks of the instruction boundary, which change DT, ST and the schedule only. -/
def Obligations.StepRunsTheDecodedInstruction : Prop := ∀ (s : State) (i : Instr), s.pc.toNat ≤ 0xFFE →
  decodeBytes [Memory.read s.mem s.pc.toNat, Memory.read s.mem (s.pc.toNat + 1)] = .ok (i, []) →
  step s = mapNext (fun t => { t with
    dt := countDown t.inputs.tickCount.1 t.dt, st := countDown t.inputs.tickCount.1 t.st,
    inputs := t.inputs.tickCount.2 }) (exec i s)

/-- A fetch whose second byte would lie above 0xFFF ends in `ProgramCounterOutOfRange(pc)`, before anything is decoded; it is
the spec's decision D7 (log 7). -/
def Obligations.FetchAboveTopFaults : Prop := ∀ s : State, 0xFFE < s.pc.toNat →
  step s = .fault (.programCounterOutOfRange s.pc.toNat)

/-- R180, R34: reset-and-load of at most 1792 words, for every FLAG_ALIASED and FONT_TABLE (R3; log 2, log 4). The flag is 0. That
stack, memory outside font and image, and the framebuffer are zero is the spec's decision D22 (log 5, log 20). -/
def Obligations.ResetAndLoadLeavesTheResetState : Prop := ∀ (aliased : Bool) (font : Vector Byte 80) (image : List Word),
  image.length ≤ 1792 → ∃ s, resetAndLoad aliased font image = .next s ∧
    s.flagAliased = aliased ∧ s.flagByte = 0#8 ∧
    (∀ k, s.getV k = 0#8) ∧ s.i = 0#16 ∧ s.dt = 0#8 ∧ s.st = 0#8 ∧ s.pc = 0x200#16 ∧ s.sp = 0 ∧
    (∀ k : Fin 16, s.stack.get k = 0#16) ∧
    (∀ a : Fin 80, Memory.read s.mem a.val = font.get a) ∧
    (∀ a, 80 ≤ a → a < 0x200 → Memory.read s.mem a = 0#8) ∧
    (∀ (k : Nat) (h : k < image.length), Memory.read s.mem (0x200 + 2 * k) = (image[k]).extractLsb' 8 8 ∧
      Memory.read s.mem (0x200 + 2 * k + 1) = (image[k]).extractLsb' 0 8) ∧
    (∀ a, 0x200 + 2 * image.length ≤ a → Memory.read s.mem a = 0#8) ∧
    (∀ x y, Framebuffer.read s.fb x y = false)

/-- R183: an image over 1792 words is refused; it is the spec's decision D22 (log 24). -/
def Obligations.OverlongImageIsRefused : Prop := ∀ (aliased : Bool) (font : Vector Byte 80) (image : List Word),
  1792 < image.length → resetAndLoad aliased font image = .refused (.imageTooLong image.length)

/-- The model's State.reset is reset-and-load of an empty image with FLAG_ALIASED true and the default font of R28, the defaults of
R3 (log 2, log 4, log 23), and it meets the
invariant. Sanity. -/
def Obligations.ResetIsAnEmptyLoad : Prop :=
  (∀ font : Vector Byte 80, font.toList = fontTable → resetAndLoad true font [] = .next State.reset) ∧ State.reset.Inv

/-- Every reset-and-load, whatever FLAG_ALIASED and FONT_TABLE, leaves a state that meets the invariant. -/
def Obligations.LoadedStateMeetsTheInvariant : Prop := ∀ (aliased : Bool) (font : Vector Byte 80) (image : List Word) (s : State),
  resetAndLoad aliased font image = .next s → s.Inv

/-- Every step keeps the invariant: memory in its canonical form, `pc` even and in 0x200..0x1002 (R21), every stack entry in
use even and in 0x202..0x1000 (R84). It rests on the target and fetch checks of D7 to D9 (log 7, log 8). -/
def Obligations.StepKeepsTheInvariant : Prop := ∀ s t : State, s.Inv → step s = .next t → t.Inv

/-- No step changes a byte below 0x200, in any state: the write guard of R48 over the whole machine. -/
def Obligations.GuardedRegionIsNeverWritten : Prop := ∀ (s t : State) (a : Nat), step s = .next t → a < 0x200 →
  Memory.read t.mem a = Memory.read s.mem a

/-! ## All instructions -/

/-- R151, R152, R158: an instruction ends in the error of the table of errors, in its order of priority, with its info value;
where the table has none it completes. No other outcome exists (R150). The errors and their order rest on D6, D8 to D11 (log 6, log
8 to log 10). That an instruction completes otherwise rests, for `LD Vx, K`, on the MODEL'S CHOICE that an answer always comes (D17,
log 13; R144 leaves it to the model), and for the others on the spec's decisions: quit sampled with the mask in `SKP` and `SKNP` (D16,
log 12), no guard in `ADD I` (D19, log 17), the range of `LD F` (D20, log 18), unguarded reads (D25, log 19), `nnn` of `SYS` ignored
(D26, log 21). -/
def Obligations.OutcomeIsTheErrorTables : Prop := ∀ (i : Instr) (s : State),
  match errorOf i s with
  | some f => exec i s = .fault f
  | none => ∃ t, exec i s = .next t

/-- R157: `QuitRequested` arises only inside `SKP`, `SKNP` and `LD Vx, K`, and the quit input has no effect on any other
instruction. -/
def Obligations.QuitOnlyFromKeyboardInstructions : Prop :=
  (∀ (i : Instr) (s : State), exec i s = .fault .quitRequested → ∃ x, i = .skp x ∨ i = .sknp x ∨ i = .ldVxK x) ∧
  (∀ s : State, step s = .fault .quitRequested →
    ∃ w, s.fetch = .ok w ∧ ∃ x, decode w = .skp x ∨ decode w = .sknp x ∨ decode w = .ldVxK x) ∧
  (∀ (i : Instr) (s : State) (samples : List KeySample) (answers : List KeyAnswer),
    (∀ x, i ≠ .skp x ∧ i ≠ .sknp x ∧ i ≠ .ldVxK x) →
    let change := fun t : State => { t with inputs := { t.inputs with keySamples := samples, keyAnswers := answers } }
    exec i (change s) = mapNext change (exec i s))

/-- Inputs reach only `RND`, `SKP`, `SKNP` and `LD Vx, K` (R112, R140, R144): every other instruction does the same whatever
is lined up, and leaves it. -/
def Obligations.InputsReachOnlyDrawingInstructions : Prop := ∀ (i : Instr) (s : State) (e : Inputs),
  (∀ x kk, i ≠ .rnd x kk ∧ i ≠ .skp x ∧ i ≠ .sknp x ∧ i ≠ .ldVxK x) →
  exec i { s with inputs := e } = mapNext (fun t => { t with inputs := e }) (exec i s)

/-- No instruction reads ST (R18, R32), and none reads the flag's own cell where FLAG_ALIASED is false (D1; log 2). Two states that
differ in ST only, or in the cell only, have outcomes that differ in it only. -/
def Obligations.SoundTimerAndFlagCellAreNeverRead : Prop := ∀ (i : Instr) (s : State),
  (∀ b : Byte, mapNext (fun t => { t with st := 0#8 }) (exec i { s with st := b }) =
    mapNext (fun t => { t with st := 0#8 }) (exec i s)) ∧
  (∀ b c : Bool, mapNext (fun t => { t with flag := .cell false }) (exec i { s with flag := .cell b }) =
    mapNext (fun t => { t with flag := .cell false }) (exec i { s with flag := .cell c }))

/-- R32, R135: only `DRW` reads the framebuffer, only `DRW` and `CLS` write it. -/
def Obligations.FramebufferIsDrawAndClearOnly : Prop :=
  (∀ (i : Instr) (s t : State), exec i s = .next t → i ≠ .cls → (∀ x y n, i ≠ .drw x y n) → t.fb = s.fb) ∧
  (∀ (i : Instr) (s : State) (f : Framebuffer), (∀ x y n, i ≠ .drw x y n) →
    mapNext (fun t => { t with fb := Framebuffer.clear }) (exec i { s with fb := f }) =
      mapNext (fun t => { t with fb := Framebuffer.clear }) (exec i s))

/-- R25: no instruction but `CALL` and `RET` reads or writes `sp` or a stack entry. -/
def Obligations.StackIsCallAndReturnOnly : Prop := ∀ (i : Instr) (s : State) (p : Fin 17) (m : Vector Word 16),
  i ≠ .ret → (∀ nnn, i ≠ .call nnn) →
  exec i { s with sp := p, stack := m } = mapNext (fun t => { t with sp := p, stack := m }) (exec i s)

/-- R16, R17, R18: `I` is written by `LD I`, `ADD I` and `LD F` only, DT by `LD DT, Vx` only and ST by `LD ST, Vx` only: no
handler decrements a timer. That the transfers leave `I` is the spec's decision D24 (log 19). -/
def Obligations.IndexAndTimersWrittenByTheirLoads : Prop := ∀ (i : Instr) (s t : State), exec i s = .next t →
  ((∀ nnn x, i ≠ .ldI nnn ∧ i ≠ .addI x ∧ i ≠ .ldF x) → t.i = s.i) ∧
  ((∀ x, i ≠ .ldDTVx x) → t.dt = s.dt) ∧ ((∀ x, i ≠ .ldSTVx x) → t.st = s.st)

/-- R12, R14: the frame of the registers and the flag. Every register outside the write rows of R12 keeps its value, where `V[15]`
is written as the flag only with FLAG_ALIASED; an instruction outside R14 leaves the flag's own cell, where there is one; and no
instruction changes where the flag lives (D1; log 2). -/
def Obligations.RegistersWrittenAsTabled : Prop := ∀ (i : Instr) (s t : State), exec i s = .next t →
  (∀ k : Reg, writesV s.flagAliased i k = false → t.getV k = s.getV k) ∧
  (writesFlag i = false → t.flag = s.flag) ∧ t.flagAliased = s.flagAliased

/-- R46: the frame of memory. Every byte outside the stored bytes reads as before; only `LD B` and `LD [I]` store, 3 and
`x + 1` bytes from `I`. -/
def Obligations.MemoryWrittenAsTabled : Prop := ∀ (i : Instr) (s t : State) (a : Nat), exec i s = .next t →
  (a < s.i.toNat ∨ s.i.toNat + storeLength i ≤ a) → Memory.read t.mem a = Memory.read s.mem a

/-- R20, R85: a transfer puts `pc` at an even address in 0x200..0xFFE; a skip instruction adds 2 or 4; every other instruction
adds 2. The bounds above and evenness are D8, D9 (log 8). -/
def Obligations.ProgramCounterMovesAsTabled : Prop := ∀ (i : Instr) (s t : State), exec i s = .next t →
  (isTransfer i = true → t.pc.toNat % 2 = 0 ∧ 0x200 ≤ t.pc.toNat ∧ t.pc.toNat ≤ 0xFFE) ∧
  (isSkip i = true → t.pc = s.pc + 2#16 ∨ t.pc = s.pc + 4#16) ∧
  (isTransfer i = false → isSkip i = false → t.pc = s.pc + 2#16)

/-! ## Control flow -/

/-- `SYS` is a no-operation (R83); that `nnn` is wholly ignored is the spec's decision D26 (log 21). -/
def Obligations.SysOnlyAdvances : Prop := ∀ (nnn : Addr) (s : State),
  exec (.sys nnn) s = .next { s with pc := s.pc + 2#16 }

/-- R88, R89: `SE Vx, byte` and `SNE Vx, byte`. -/
def Obligations.SkipOnImmediate : Prop := ∀ (x : Reg) (kk : Byte) (s : State),
  exec (.seImm x kk) s = .next { s with pc := if s.getV x = kk then s.pc + 4#16 else s.pc + 2#16 } ∧
  exec (.sneImm x kk) s = .next { s with pc := if s.getV x ≠ kk then s.pc + 4#16 else s.pc + 2#16 }

/-- R90, R91: `SE Vx, Vy` and `SNE Vx, Vy`. -/
def Obligations.SkipOnRegisters : Prop := ∀ (x y : Reg) (s : State),
  exec (.seReg x y) s = .next { s with pc := if s.getV x = s.getV y then s.pc + 4#16 else s.pc + 2#16 } ∧
  exec (.sneReg x y) s = .next { s with pc := if s.getV x ≠ s.getV y then s.pc + 4#16 else s.pc + 2#16 }

/-- `JP addr` (R86): below 0x200 an error, an odd target an error (D8; log 8), else `pc` is `nnn` and nothing else changes. -/
def Obligations.JumpIsChecked : Prop := ∀ (nnn : Addr) (s : State),
  (nnn.toNat < 0x200 → exec (.jp nnn) s = .fault (.programCounterOutOfRange nnn.toNat)) ∧
  (0x200 ≤ nnn.toNat → nnn.toNat % 2 = 1 → exec (.jp nnn) s = .fault (.programCounterMisaligned nnn.toNat)) ∧
  (0x200 ≤ nnn.toNat → nnn.toNat % 2 = 0 → exec (.jp nnn) s = .next { s with pc := BitVec.ofNat 16 nnn.toNat })

/-- `JP V0, addr` (R92): the sum is not truncated; the upper check and the odd check are D9, D8 (log 8). -/
def Obligations.JumpOffsetIsChecked : Prop := ∀ (nnn : Addr) (s : State) (t : Nat), t = nnn.toNat + (s.getV 0).toNat →
  (t < 0x200 ∨ 0xFFF < t → exec (.jpV0 nnn) s = .fault (.programCounterOutOfRange t)) ∧
  (0x200 ≤ t → t ≤ 0xFFF → t % 2 = 1 → exec (.jpV0 nnn) s = .fault (.programCounterMisaligned t)) ∧
  (0x200 ≤ t → t ≤ 0xFFF → t % 2 = 0 → exec (.jpV0 nnn) s = .next { s with pc := BitVec.ofNat 16 t })

/-- `CALL addr` (R87, R23): the target checks, then overflow, then `pc + 2` pushed and `pc` set; nothing else changes. The odd
check is D8, the order D11 (log 8, log 10). -/
def Obligations.CallPushesTheReturnAddress : Prop := ∀ (nnn : Addr) (s : State),
  (nnn.toNat < 0x200 → exec (.call nnn) s = .fault (.programCounterOutOfRange nnn.toNat)) ∧
  (0x200 ≤ nnn.toNat → nnn.toNat % 2 = 1 → exec (.call nnn) s = .fault (.programCounterMisaligned nnn.toNat)) ∧
  (0x200 ≤ nnn.toNat → nnn.toNat % 2 = 0 → s.sp.val = 16 → exec (.call nnn) s = .fault .callStackOverflow) ∧
  (0x200 ≤ nnn.toNat → nnn.toNat % 2 = 0 → s.sp.val < 16 → ∃ t, exec (.call nnn) s = .next t ∧
    t.pc.toNat = nnn.toNat ∧ t.sp.val = s.sp.val + 1 ∧
    (∀ k : Fin 16, t.stack.get k = if k.val = s.sp.val then s.pc + 2#16 else s.stack.get k) ∧
    t = { s with pc := t.pc, sp := t.sp, stack := t.stack })

/-- `RET` (R84, R24): underflow first, then the checks on the popped entry, then `pc` is the entry itself and `sp` one less; the
entry keeps its value (D31) and nothing else changes. The upper and odd checks are D9, D8 (log 8). -/
def Obligations.ReturnPopsThePc : Prop := ∀ s : State,
  (s.sp.val = 0 → exec .ret s = .fault .callStackUnderflow) ∧
  (∀ k : Fin 16, s.sp.val = k.val + 1 → ∀ t : Nat, t = (s.stack.get k).toNat →
    (t < 0x200 ∨ 0xFFF < t → exec .ret s = .fault (.programCounterOutOfRange t)) ∧
    (0x200 ≤ t → t ≤ 0xFFF → t % 2 = 1 → exec .ret s = .fault (.programCounterMisaligned t)) ∧
    (0x200 ≤ t → t ≤ 0xFFF → t % 2 = 0 → ∃ u, exec .ret s = .next u ∧ u.pc = s.stack.get k ∧ u.sp.val = k.val ∧
      u = { s with pc := u.pc, sp := u.sp }))

/-- `CALL` followed by `RET` comes back to the instruction after the `CALL` (R87), with the stack as deep as before. -/
def Obligations.ReturnComesBackAfterTheCall : Prop := ∀ (nnn : Addr) (s t : State),
  s.pc.toNat % 2 = 0 → 0x200 ≤ s.pc.toNat → s.pc.toNat < 0xFFE → exec (.call nnn) s = .next t →
  ∃ u, exec .ret t = .next u ∧ u.pc = s.pc + 2#16 ∧ u.sp = s.sp ∧ u = { s with pc := u.pc, stack := t.stack }

/-- R93: a word that matches none of rows 1 to 35 is raw data; executing raw data always reports `IllegalInstruction` with the
word, in every state, and nothing changes, `pc` neither (a fault keeps the state from before the step, R153); nothing else
reports it. This is the instruction's stop. -/
def Obligations.RawDataAlwaysStops : Prop := ∀ (w : Word) (s : State),
  ((∀ r ∈ instructionRows, rowMatches r w = false) → decode w = .dw w) ∧
  exec (.dw w) s = .fault (.illegalInstruction w) ∧
  (∀ i : Instr, exec i s = .fault (.illegalInstruction w) → i = .dw w)

/-! ## Register load, arithmetic and logic -/

/-- R101, R103: `LD Vx, byte` and `LD Vx, Vy`; neither writes the flag, `V[15]` only as `V[x]`. -/
def Obligations.LoadsOfRegisters : Prop := ∀ (x y : Reg) (kk : Byte) (s : State),
  (∃ t, exec (.ldImm x kk) s = .next t ∧ t.getV x = kk ∧ t.pc = s.pc + 2#16 ∧ SameButRegPc x s t) ∧
  (∃ t, exec (.ldReg x y) s = .next t ∧ t.getV x = s.getV y ∧ t.pc = s.pc + 2#16 ∧ SameButRegPc x s t)

/-- R102: `ADD Vx, byte` wraps modulo 256 and writes no flag. -/
def Obligations.AddImmediateWraps : Prop := ∀ (x : Reg) (kk : Byte) (s : State), ∃ t, exec (.addImm x kk) s = .next t ∧
  (t.getV x).toNat = ((s.getV x).toNat + kk.toNat) % 256 ∧ t.pc = s.pc + 2#16 ∧ SameButRegPc x s t

/-- R104, R105, R106: `OR`, `AND`, `XOR`, bit by bit, no flag. -/
def Obligations.LogicBitByBit : Prop := ∀ (x y : Reg) (s : State),
  (∃ t, exec (.orReg x y) s = .next t ∧ (∀ b < 8, (t.getV x).getLsbD b = ((s.getV x).getLsbD b || (s.getV y).getLsbD b)) ∧
    t.pc = s.pc + 2#16 ∧ SameButRegPc x s t) ∧
  (∃ t, exec (.andReg x y) s = .next t ∧ (∀ b < 8, (t.getV x).getLsbD b = ((s.getV x).getLsbD b && (s.getV y).getLsbD b)) ∧
    t.pc = s.pc + 2#16 ∧ SameButRegPc x s t) ∧
  (∃ t, exec (.xorReg x y) s = .next t ∧ (∀ b < 8, (t.getV x).getLsbD b = ((s.getV x).getLsbD b ^^ (s.getV y).getLsbD b)) ∧
    t.pc = s.pc + 2#16 ∧ SameButRegPc x s t)

/-- `ADD Vx, Vy` (R107): result and carry from the operands before any write. The flag is `V[15]`, where with `x = 15` the result is
what stays (D2; log 3), or with FLAG_ALIASED false its own cell (D1; log 2). -/
def Obligations.AddSetsCarry : Prop := ∀ (x y : Reg) (s : State), ∃ t, exec (.addReg x y) s = .next t ∧
  (t.getV x).toNat = ((s.getV x).toNat + (s.getV y).toNat) % 256 ∧
  (x ≠ 15 ∨ s.flagAliased = false → t.flagByte = if 255 < (s.getV x).toNat + (s.getV y).toNat then 1#8 else 0#8) ∧
  t.pc = s.pc + 2#16 ∧ SameButRegFlagPc x s t

/-- `SUB Vx, Vy` (R108) and `SUBN Vx, Vy` (R110): differences modulo 256, the flag strictly greater; where the
flag lives and register 15 as in D1, D2 (log 2, log 3). -/
def Obligations.SubtractionsSetNoBorrow : Prop := ∀ (x y : Reg) (s : State) (a b : Nat),
  a = (s.getV x).toNat → b = (s.getV y).toNat →
  (∃ t, exec (.subReg x y) s = .next t ∧ (t.getV x).toNat = (256 + a - b) % 256 ∧
    (x ≠ 15 ∨ s.flagAliased = false → t.flagByte = if a > b then 1#8 else 0#8) ∧ t.pc = s.pc + 2#16 ∧ SameButRegFlagPc x s t) ∧
  (∃ t, exec (.subnReg x y) s = .next t ∧ (t.getV x).toNat = (256 + b - a) % 256 ∧
    (x ≠ 15 ∨ s.flagAliased = false → t.flagByte = if b > a then 1#8 else 0#8) ∧ t.pc = s.pc + 2#16 ∧ SameButRegFlagPc x s t)

/-- `SHR Vx` (R109) and `SHL Vx` (R111): one bit, the flag is the bit shifted out, `Vy` plays no part; where the
flag lives and register 15 as in D1, D2 (log 2, log 3). -/
def Obligations.ShiftsSetTheBitShiftedOut : Prop := ∀ (x y : Reg) (s : State) (a : Nat), a = (s.getV x).toNat →
  (∃ t, exec (.shr x y) s = .next t ∧ (t.getV x).toNat = a / 2 ∧
    (x ≠ 15 ∨ s.flagAliased = false → t.flagByte.toNat = a % 2) ∧ t.pc = s.pc + 2#16 ∧ SameButRegFlagPc x s t) ∧
  (∃ t, exec (.shl x y) s = .next t ∧ (t.getV x).toNat = 2 * a % 256 ∧
    (x ≠ 15 ∨ s.flagAliased = false → t.flagByte.toNat = a / 128) ∧ t.pc = s.pc + 2#16 ∧ SameButRegFlagPc x s t)

/-- `RND Vx, byte` (R112): the draw masked with `kk`, so every bit clear in `kk` is clear; a byte the host has lined up is the
draw, otherwise the draw is the free value of D18 (log 14), whatever it is. -/
def Obligations.RandomIsMasked : Prop := ∀ (x : Reg) (kk : Byte) (s : State), ∃ t draw, exec (.rnd x kk) s = .next t ∧
  t.getV x = draw &&& kk ∧ t.pc = s.pc + 2#16 ∧ (∀ k, k ≠ x → t.getV k = s.getV k) ∧
  (∀ b rest, s.inputs.randomBytes = b :: rest → draw = b ∧ t.inputs = { s.inputs with randomBytes := rest }) ∧
  (s.inputs.randomBytes = [] → draw = Config.freeRandom s.inputs.drawn ∧
    t.inputs = { s.inputs with drawn := s.inputs.drawn + 1 }) ∧
  t = { s with v := t.v, pc := t.pc, inputs := t.inputs }

/-! ## Index register and memory -/

/-- R120: `LD I, addr`. -/
def Obligations.LoadIndex : Prop := ∀ (nnn : Addr) (s : State), ∃ t, exec (.ldI nnn) s = .next t ∧
  t.i.toNat = nnn.toNat ∧ t = { s with i := t.i, pc := s.pc + 2#16 }

/-- `ADD I, Vx` (R121): 16-bit sum; that no guard and no flag is taken is the spec's decision D19 (log 17). -/
def Obligations.AddIndexKeepsSixteenBits : Prop := ∀ (x : Reg) (s : State), ∃ t, exec (.addI x) s = .next t ∧
  t.i.toNat = (s.i.toNat + (s.getV x).toNat) % 65536 ∧ t = { s with i := t.i, pc := s.pc + 2#16 }

/-- `LD F, Vx` (R122): a value above 15 is an error, nothing is masked (C4); else `I` is 5 times the digit, the font standing at
0x000 (D20; log 18). -/
def Obligations.FontPointerIsChecked : Prop := ∀ (x : Reg) (s : State),
  (15 < (s.getV x).toNat → exec (.ldF x) s = .fault (.registerValueOutOfRange (s.getV x))) ∧
  ((s.getV x).toNat ≤ 15 → ∃ t, exec (.ldF x) s = .next t ∧ t.i.toNat = 5 * (s.getV x).toNat ∧
    t = { s with i := t.i, pc := s.pc + 2#16 })

/-- `LD B, Vx` (R123): guard, range (D6; log 6), then three digits at `I`, `I+1`, `I+2`; every other byte reads as before and
nothing else changes. -/
def Obligations.StoreDecimalDigits : Prop := ∀ (x : Reg) (s : State),
  (s.i.toNat < 0x200 → exec (.ldB x) s = .fault (.memoryWriteGuardViolation s.i.toNat)) ∧
  (0x200 ≤ s.i.toNat → 0xFFF < s.i.toNat + 2 → exec (.ldB x) s = .fault (.memoryAddressOutOfRange (s.i.toNat + 2))) ∧
  (0x200 ≤ s.i.toNat → s.i.toNat + 2 ≤ 0xFFF → Memory.wf s.mem → ∃ t, exec (.ldB x) s = .next t ∧
    (Memory.read t.mem s.i.toNat).toNat = (s.getV x).toNat / 100 ∧
    (Memory.read t.mem (s.i.toNat + 1)).toNat = (s.getV x).toNat / 10 % 10 ∧
    (Memory.read t.mem (s.i.toNat + 2)).toNat = (s.getV x).toNat % 10 ∧
    (∀ a, (a < s.i.toNat ∨ s.i.toNat + 3 ≤ a) → Memory.read t.mem a = Memory.read s.mem a) ∧
    Memory.wf t.mem ∧ t = { s with mem := t.mem, pc := s.pc + 2#16 })

/-- The digits `LD B, Vx` stores are decimal digits of the register: each at most 9, and together its value. -/
def Obligations.DecimalDigitsMakeTheValue : Prop := ∀ (x : Reg) (s t : State), Memory.wf s.mem →
  exec (.ldB x) s = .next t →
  (∀ k < 3, (Memory.read t.mem (s.i.toNat + k)).toNat ≤ 9) ∧
  100 * (Memory.read t.mem s.i.toNat).toNat + 10 * (Memory.read t.mem (s.i.toNat + 1)).toNat +
    (Memory.read t.mem (s.i.toNat + 2)).toNat = (s.getV x).toNat

/-- `LD [I], Vx` (R124): guard, range (D6; log 6), then `V[k]` at `I + k` for `k` in 0..x; every other byte reads as before,
nothing else changes, `I` neither (D24; log 19). -/
def Obligations.StoreRegisters : Prop := ∀ (x : Reg) (s : State),
  (s.i.toNat < 0x200 → exec (.ldMemVx x) s = .fault (.memoryWriteGuardViolation s.i.toNat)) ∧
  (0x200 ≤ s.i.toNat → 0xFFF < s.i.toNat + x.val →
    exec (.ldMemVx x) s = .fault (.memoryAddressOutOfRange (s.i.toNat + x.val))) ∧
  (0x200 ≤ s.i.toNat → s.i.toNat + x.val ≤ 0xFFF → Memory.wf s.mem → ∃ t, exec (.ldMemVx x) s = .next t ∧
    (∀ k : Reg, k.val ≤ x.val → Memory.read t.mem (s.i.toNat + k.val) = s.getV k) ∧
    (∀ a, (a < s.i.toNat ∨ s.i.toNat + x.val < a) → Memory.read t.mem a = Memory.read s.mem a) ∧
    Memory.wf t.mem ∧ t = { s with mem := t.mem, pc := s.pc + 2#16 })

/-- `LD Vx, [I]` (R125): range (D6; log 6), then `V[k]` from `I + k` for `k` in 0..x, unguarded (D25); the other registers and
everything else are unchanged, `I` too (D24; log 19). -/
def Obligations.LoadRegisters : Prop := ∀ (x : Reg) (s : State),
  (0xFFF < s.i.toNat + x.val → exec (.ldVxMem x) s = .fault (.memoryAddressOutOfRange (s.i.toNat + x.val))) ∧
  (s.i.toNat + x.val ≤ 0xFFF → ∃ t, exec (.ldVxMem x) s = .next t ∧
    (∀ k : Reg, t.getV k = if k.val ≤ x.val then Memory.read s.mem (s.i.toNat + k.val) else s.getV k) ∧
    t.pc = s.pc + 2#16 ∧ SameButRegsPc s t)

/-- A store into the next instruction word is what the next fetch reads (R53). -/
def Obligations.StoreIsSeenByTheNextFetch : Prop := ∀ (x : Reg) (s t : State), Memory.wf s.mem → 1 ≤ x.val →
  s.i = s.pc + 2#16 → exec (.ldMemVx x) s = .next t →
  ∃ w, t.fetch = .ok w ∧ w.toNat = (s.getV 0).toNat * 256 + (s.getV 1).toNat

/-! ## Display -/

/-- `CLS` (R131): every pixel is 0 after it, and nothing else but `pc` changes; the framebuffer is the block's (C7, D15; log
20). -/
def Obligations.ClearClearsEveryPixel : Prop := ∀ s : State, ∃ t, exec .cls s = .next t ∧
  (∀ x y, Framebuffer.read t.fb x y = false) ∧ t = { s with fb := t.fb, pc := s.pc + 2#16 }

/-- `DRW Vx, Vy, n` (R133, R134): the range error (D6; log 6); else every covered pixel is XORed with its sprite bit, with
wrap on both axes, every other pixel stays, the flag is 1 exactly on a collision, in `V[15]` or with FLAG_ALIASED false in its
own cell (D1; log 2), coordinates being the registers' old values (D2; log 3), and nothing else changes. -/
def Obligations.DrawXorsTheSprite : Prop := ∀ (x y : Reg) (n : Fin 16) (s : State),
  (0 < n.val → 0xFFF < s.i.toNat + n.val - 1 →
    exec (.drw x y n) s = .fault (.memoryAddressOutOfRange (s.i.toNat + n.val - 1))) ∧
  (n.val = 0 ∨ s.i.toNat + n.val - 1 ≤ 0xFFF → ∃ t, exec (.drw x y n) s = .next t ∧
    (∀ r < n.val, ∀ c < 8, Framebuffer.read t.fb (s.screenX x c) (s.screenY y r) =
      (s.spriteBit r c ^^ Framebuffer.read s.fb (s.screenX x c) (s.screenY y r))) ∧
    (∀ px py, (∀ r < n.val, ∀ c < 8, ¬ (px = s.screenX x c ∧ py = s.screenY y r)) →
      Framebuffer.read t.fb px py = Framebuffer.read s.fb px py) ∧
    (s.Collides x y n.val → t.flagByte = 1#8) ∧ (¬ s.Collides x y n.val → t.flagByte = 0#8) ∧
    (∀ k, (k = 15 → s.flagAliased = false) → t.getV k = s.getV k) ∧ t.flagAliased = s.flagAliased ∧
    t = { s with v := t.v, flag := t.flag, fb := t.fb, pc := s.pc + 2#16 })

/-- Drawing the same sprite twice at the same position restores the framebuffer: that half is R135 (a). The second clause is the
MODEL'S READING of the collision rules R133 and R134 and not R135 (a) as it is worded (DEDUCED, log 26): the second draw reports a
collision exactly where the first one lit a pixel. The position of the second draw is the same whatever `x` and `y` are, register
15 too, as long as the first draw's flag leaves the coordinates. -/
def Obligations.DrawTwiceRestores : Prop := ∀ (x y : Reg) (n : Fin 16) (s t u : State),
  exec (.drw x y n) s = .next t → t.spriteX x = s.spriteX x → t.spriteY y = s.spriteY y →
  exec (.drw x y n) t = .next u →
  u.fb = s.fb ∧
  (u.flagByte = 1#8 ↔ ∃ r < n.val, ∃ c < 8, s.spriteBit r c = true ∧
    Framebuffer.read s.fb (s.screenX x c) (s.screenY y r) = false)

/-- R135 (a) as it is worded, "the second draw reports VF = 1 if the sprite has any 1 bit, else 0", for every framebuffer. Where
the first draw erased the pixels it met, R133 gives the second draw no collision: expected to fail (DEDUCED, log 26). -/
def Obligations.SecondDrawAlwaysCollides : Prop := ∀ (x y : Reg) (n : Fin 16) (s t u : State),
  exec (.drw x y n) s = .next t → t.spriteX x = s.spriteX x → t.spriteY y = s.spriteY y →
  exec (.drw x y n) t = .next u →
  ((∃ r < n.val, ∃ c < 8, s.spriteBit r c = true) → u.flagByte = 1#8) ∧
  ((∀ r < n.val, ∀ c < 8, s.spriteBit r c = false) → u.flagByte = 0#8)

/-- R135 (b), (c): on an all-zero framebuffer no draw collides, and an all-zero sprite changes no pixel and reports 0. Where the
flag lives is D1 (log 2). -/
def Obligations.BlankDrawsDoNotCollide : Prop := ∀ (x y : Reg) (n : Fin 16) (s t : State),
  exec (.drw x y n) s = .next t →
  ((∀ px py, Framebuffer.read s.fb px py = false) → t.flagByte = 0#8) ∧
  ((∀ r < n.val, ∀ c < 8, s.spriteBit r c = false) → t.fb = s.fb ∧ t.flagByte = 0#8)

/-! ## Keyboard and timers -/

/-- `SKP Vx` and `SKNP Vx` (R141, R142): the range check, then quit, then the skip on bit `V[x]` of the mask; one sample is
taken and nothing else changes. The separate quit input and the order are D16, D11 (log 10, log 12). -/
def Obligations.SkipOnKeys : Prop := ∀ (x : Reg) (s : State) (k : KeySample) (e : Inputs), s.inputs.keySample = (k, e) →
  (15 < (s.getV x).toNat → exec (.skp x) s = .fault (.registerValueOutOfRange (s.getV x)) ∧
    exec (.sknp x) s = .fault (.registerValueOutOfRange (s.getV x))) ∧
  ((s.getV x).toNat ≤ 15 → k.quit = true →
    exec (.skp x) s = .fault .quitRequested ∧ exec (.sknp x) s = .fault .quitRequested) ∧
  ((s.getV x).toNat ≤ 15 → k.quit = false →
    exec (.skp x) s = .next
      { s with pc := if k.mask.getLsbD (s.getV x).toNat = true then s.pc + 4#16 else s.pc + 2#16, inputs := e } ∧
    exec (.sknp x) s = .next
      { s with pc := if k.mask.getLsbD (s.getV x).toNat = true then s.pc + 2#16 else s.pc + 4#16, inputs := e })

/-- `LD Vx, K` (R143): the answered digit in `Vx`, or `QuitRequested` on the sentinel. That the answer always comes is D17 (log
13). -/
def Obligations.KeyWaitStoresTheDigit : Prop := ∀ (x : Reg) (s : State) (e : Inputs),
  (s.inputs.keyAnswer = (.quitSentinel, e) → exec (.ldVxK x) s = .fault .quitRequested) ∧
  (∀ d : Fin 16, s.inputs.keyAnswer = (.key d, e) → ∃ t, exec (.ldVxK x) s = .next t ∧ (t.getV x).toNat = d.val ∧
    (∀ k, k ≠ x → t.getV k = s.getV k) ∧ t = { s with v := t.v, pc := s.pc + 2#16, inputs := e })

/-- R145, R146, R147: `LD Vx, DT`, `LD DT, Vx`, `LD ST, Vx`. -/
def Obligations.TimerTransfers : Prop := ∀ (x : Reg) (s : State),
  (∃ t, exec (.ldVxDT x) s = .next t ∧ t.getV x = s.dt ∧ t.pc = s.pc + 2#16 ∧ SameButRegPc x s t) ∧
  exec (.ldDTVx x) s = .next { s with dt := s.getV x, pc := s.pc + 2#16 } ∧
  exec (.ldSTVx x) s = .next { s with st := s.getV x, pc := s.pc + 2#16 }

/-- One tick (R165): each timer that is not 0 loses one, a timer at 0 stays (D13; log 15), and nothing else changes. -/
def Obligations.TickDecrementsBothTimers : Prop := ∀ s : State,
  s.tick.dt.toNat = s.dt.toNat - 1 ∧ s.tick.st.toNat = s.st.toNat - 1 ∧
  s.tick = { s with dt := s.tick.dt, st := s.tick.st }

/-- The ticks of a boundary (R166) are that many single ticks (R165), and after `n` of them a timer that held `v` holds
`max(v - n, 0)` (R145). -/
def Obligations.BoundaryTicksAreSingleTicks : Prop := ∀ (s : State) (n : Nat),
  s.tickTimes n = Nat.iterate State.tick n s ∧
  (s.tickTimes n).dt.toNat = s.dt.toNat - n ∧ (s.tickTimes n).st.toNat = s.st.toNat - n
end

