-- ==== Sys2Proof/Laws/Framebuffer.lean ====
section
/-! SUPPORT. The laws of the framebuffer: pixel reads after pixel writes, and the sprite blit and collision detector pixel by
pixel. -/

namespace Sys2Proof.Machine

theorem Framebuffer.read_write (fb : Framebuffer) (x x' : Fin 64) (y y' : Fin 32) (b : Bool) :
    Framebuffer.read (Framebuffer.write fb x y b) x' y' = if x' = x ∧ y' = y then b else Framebuffer.read fb x' y' := by
  simp only [Framebuffer.read, Framebuffer.write, Vector.get_eq_getElem, Vector.getElem_set]
  by_cases hx : x.val = x'.val
  · have hx' : x' = x := Fin.ext hx.symm
    subst hx'
    simp only [true_and, if_true, Vector.getElem_set]
    by_cases hy : y.val = y'.val
    · have hy' : y' = y := Fin.ext hy.symm
      simp [hy']
    · have hy' : ¬ y' = y := fun h => hy (by rw [h])
      simp [hy, hy']
  · have hx' : ¬ x' = x := fun h => hx (by rw [h])
    simp [hx, hx']

theorem Framebuffer.read_clear (x : Fin 64) (y : Fin 32) : Framebuffer.read Framebuffer.clear x y = false := by
  simp [Framebuffer.read, Framebuffer.clear, Vector.get_eq_getElem]

/-- Two framebuffers with the same pixels are equal. -/
theorem Framebuffer.ext_read (f g : Framebuffer) (h : ∀ x y, Framebuffer.read f x y = Framebuffer.read g x y) : f = g := by
  apply Vector.ext
  intro i hi
  apply Vector.ext
  intro j hj
  simpa [Framebuffer.read, Vector.get_eq_getElem] using h ⟨i, hi⟩ ⟨j, hj⟩

/-- Bit `7 - c` of a sampled row is the pixel of column `c`. -/
theorem Framebuffer.getLsbD_sampleRow (fb : Framebuffer) (x0 : Nat) (y : Fin 32) (c : Nat) (hc : c < 8) :
    (Framebuffer.sampleRow fb x0 y).getLsbD (7 - c) = Framebuffer.read fb (spriteColumn x0 c) y := by
  unfold Framebuffer.sampleRow
  have hc : c = 0 ∨ c = 1 ∨ c = 2 ∨ c = 3 ∨ c = 4 ∨ c = 5 ∨ c = 6 ∨ c = 7 := by omega
  rcases hc with rfl | rfl | rfl | rfl | rfl | rfl | rfl | rfl <;>
    simp only [BitVec.getLsbD_append, BitVec.getLsbD_ofBool] <;> simp

theorem spriteColumn_inj (x0 c d : Nat) (hc : c < 8) (hd : d < 8) : spriteColumn x0 c = spriteColumn x0 d ↔ c = d := by
  simp only [spriteColumn, Fin.ext_iff, Fin.val_ofNat]
  omega

/-- What a sequence of writes to columns of a row leaves in a pixel. -/
theorem Framebuffer.read_foldl_write (cs : List Nat) (fb : Framebuffer) (x0 : Nat) (y : Fin 32) (new : Byte)
    (hcs : ∀ c ∈ cs, c < 8) (x' : Fin 64) (y' : Fin 32) :
    (∀ c ∈ cs, x' = spriteColumn x0 c → y' = y →
      Framebuffer.read (cs.foldl (fun f c => Framebuffer.write f (spriteColumn x0 c) y (new.getLsbD (7 - c))) fb) x' y' =
        new.getLsbD (7 - c)) ∧
    ((∀ c ∈ cs, ¬ (x' = spriteColumn x0 c ∧ y' = y)) →
      Framebuffer.read (cs.foldl (fun f c => Framebuffer.write f (spriteColumn x0 c) y (new.getLsbD (7 - c))) fb) x' y' =
        Framebuffer.read fb x' y') := by
  induction cs generalizing fb with
  | nil => simp
  | cons d cs ih =>
    have ih := ih (Framebuffer.write fb (spriteColumn x0 d) y (new.getLsbD (7 - d))) fun c hc => hcs c (by simp [hc])
    rw [List.foldl_cons]
    constructor
    · intro c hc hx hy
      by_cases hmem : c ∈ cs
      · exact ih.1 c hmem hx hy
      · have hcd : c = d := by simpa [hmem] using hc
        subst hcd
        rw [ih.2, Framebuffer.read_write, if_pos ⟨hx, hy⟩]
        rintro e he ⟨hxe, -⟩
        have := (spriteColumn_inj x0 c e (hcs c hc) (hcs e (by simp [he]))).1 (hx ▸ hxe)
        exact hmem (this ▸ he)
    · intro h
      rw [ih.2 fun c hc => h c (by simp [hc]), Framebuffer.read_write, if_neg (h d (by simp))]

/-- A row written back: its pixels are the bits of the new row, the leftmost bit 7. -/
theorem Framebuffer.read_writeRow_at (fb : Framebuffer) (x0 : Nat) (y : Fin 32) (new : Byte) (c : Nat) (hc : c < 8) :
    Framebuffer.read (Framebuffer.writeRow fb x0 y new) (spriteColumn x0 c) y = new.getLsbD (7 - c) :=
  (Framebuffer.read_foldl_write (List.range 8) fb x0 y new (by simp) _ _).1 c (by simpa using hc) rfl rfl

/-- A row written back changes no other pixel. -/
theorem Framebuffer.read_writeRow_other (fb : Framebuffer) (x0 : Nat) (y : Fin 32) (new : Byte) (x' : Fin 64) (y' : Fin 32)
    (h : ∀ c < 8, ¬ (x' = spriteColumn x0 c ∧ y' = y)) :
    Framebuffer.read (Framebuffer.writeRow fb x0 y new) x' y' = Framebuffer.read fb x' y' :=
  (Framebuffer.read_foldl_write (List.range 8) fb x0 y new (by simp) x' y').2 fun c hc => h c (by simpa using hc)

theorem spriteRow_add (y0 r : Nat) : spriteRow (y0 + 1) r = spriteRow y0 (r + 1) := by
  simp only [spriteRow, Fin.ext_iff, Fin.val_ofNat]
  omega

theorem spriteRow_inj (y0 r q : Nat) (hr : r < 32) (hq : q < 32) : spriteRow y0 r = spriteRow y0 q ↔ r = q := by
  simp only [spriteRow, Fin.ext_iff, Fin.val_ofNat]
  omega

/-- The blit leaves every pixel it does not cover. -/
theorem Framebuffer.read_draw_other (rows : List Byte) (fb : Framebuffer) (x0 y0 : Nat) (x' : Fin 64) (y' : Fin 32)
    (h : ∀ r < rows.length, ∀ c < 8, ¬ (x' = spriteColumn x0 c ∧ y' = spriteRow y0 r)) :
    Framebuffer.read (Framebuffer.draw fb x0 y0 rows).1 x' y' = Framebuffer.read fb x' y' := by
  induction rows generalizing fb y0 with
  | nil => rfl
  | cons b rows ih =>
    rw [Framebuffer.draw]
    dsimp only
    rw [ih, Framebuffer.read_writeRow_other]
    · exact fun c hc => h 0 (by simp) c hc
    · intro r hr c hc
      rw [spriteRow_add]
      exact h (r + 1) (by simpa using hr) c hc

/-- The blit XORs each pixel it covers with its sprite bit. -/
theorem Framebuffer.read_draw_at (rows : List Byte) (fb : Framebuffer) (x0 y0 : Nat) (hlen : rows.length ≤ 32)
    (r : Nat) (hr : r < rows.length) (c : Nat) (hc : c < 8) :
    Framebuffer.read (Framebuffer.draw fb x0 y0 rows).1 (spriteColumn x0 c) (spriteRow y0 r) =
      (rows[r].getLsbD (7 - c) ^^ Framebuffer.read fb (spriteColumn x0 c) (spriteRow y0 r)) := by
  induction rows generalizing fb y0 r with
  | nil => simp at hr
  | cons b rows ih =>
    rw [List.length_cons] at hlen hr
    rw [Framebuffer.draw]
    dsimp only
    cases r with
    | zero =>
      rw [Framebuffer.read_draw_other, Framebuffer.read_writeRow_at _ _ _ _ c hc, BitVec.getLsbD_xor,
        Framebuffer.getLsbD_sampleRow _ _ _ c hc]
      · rfl
      · rintro q hq d - ⟨-, h⟩
        rw [spriteRow_add, spriteRow_inj _ _ _ (by omega) (by omega)] at h
        omega
    | succ r =>
      rw [← spriteRow_add, ih _ _ (by omega) r (by omega), Framebuffer.read_writeRow_other]
      · simp
      · rintro d - ⟨-, h⟩
        rw [spriteRow_add, spriteRow_inj _ _ _ (by omega) (by omega)] at h
        omega

/-- A sprite row meets the sampled row in a set bit exactly when some column is set in both. -/
theorem Framebuffer.row_collides_iff (fb : Framebuffer) (x0 : Nat) (y : Fin 32) (b : Byte) :
    ((b &&& Framebuffer.sampleRow fb x0 y) != 0#8) = true ↔
      ∃ c < 8, b.getLsbD (7 - c) = true ∧ Framebuffer.read fb (spriteColumn x0 c) y = true := by
  rw [bne_iff_ne]
  constructor
  · intro h
    by_contra hno
    refine h (BitVec.eq_of_getLsbD_eq fun i hi => ?_)
    rw [BitVec.getLsbD_and, BitVec.getLsbD_zero]
    by_contra hset
    rw [Bool.not_eq_false, Bool.and_eq_true] at hset
    refine hno ⟨7 - i, by omega, ?_, ?_⟩
    · rw [show 7 - (7 - i) = i by omega]
      exact hset.1
    · rw [← Framebuffer.getLsbD_sampleRow fb x0 y (7 - i) (by omega), show 7 - (7 - i) = i by omega]
      exact hset.2
  · rintro ⟨c, hc, hb, hp⟩ h
    have := congrArg (fun v : Byte => v.getLsbD (7 - c)) h
    simp only [BitVec.getLsbD_and, BitVec.getLsbD_zero, hb, Framebuffer.getLsbD_sampleRow fb x0 y c hc, hp] at this
    simp at this

/-- The collision detector: some set sprite bit met a pixel that was set before the blit. -/
theorem Framebuffer.draw_collides_iff (rows : List Byte) (fb : Framebuffer) (x0 y0 : Nat) (hlen : rows.length ≤ 32) :
    (Framebuffer.draw fb x0 y0 rows).2 = true ↔
      ∃ r, ∃ h : r < rows.length, ∃ c < 8, rows[r].getLsbD (7 - c) = true ∧
        Framebuffer.read fb (spriteColumn x0 c) (spriteRow y0 r) = true := by
  induction rows generalizing fb y0 with
  | nil => simp [Framebuffer.draw]
  | cons b rows ih =>
    rw [List.length_cons] at hlen
    have other (q : Nat) (hq : q < rows.length) (d : Nat) (new : Byte) :
        Framebuffer.read (Framebuffer.writeRow fb x0 (spriteRow y0 0) new) (spriteColumn x0 d) (spriteRow y0 (q + 1)) =
          Framebuffer.read fb (spriteColumn x0 d) (spriteRow y0 (q + 1)) := by
      refine Framebuffer.read_writeRow_other _ _ _ _ _ _ ?_
      rintro e - ⟨-, h⟩
      rw [spriteRow_inj _ _ _ (by omega) (by omega)] at h
      omega
    rw [Framebuffer.draw]
    dsimp only
    rw [Bool.or_eq_true, Framebuffer.row_collides_iff, ih _ _ (by omega)]
    constructor
    · rintro (⟨c, hc, hb, hp⟩ | ⟨r, hr, c, hc, hb, hp⟩)
      · exact ⟨0, by simp, c, hc, hb, hp⟩
      · rw [spriteRow_add, other r hr] at hp
        exact ⟨r + 1, by simpa using hr, c, hc, by simpa using hb, hp⟩
    · rintro ⟨r, hr, c, hc, hb, hp⟩
      cases r with
      | zero => exact .inl ⟨c, hc, hb, hp⟩
      | succ r =>
        have hr' : r < rows.length := by simpa using hr
        refine .inr ⟨r, hr', c, hc, by simpa using hb, ?_⟩
        rw [spriteRow_add, other r hr']
        exact hp

end Sys2Proof.Machine
end

