-- ==== Sys2Proof/Laws/Memory.lean ====
section
/-! SUPPORT. The laws of memory: a read after a write, and that every write keeps the canonical form. -/

namespace Sys2Proof.Machine

theorem Memory.read_nil (a : Nat) : Memory.read [] a = resetByte a := rfl

theorem Memory.read_cons (c : Host.Cell) (m : Memory) (a : Nat) :
    Memory.read (c :: m) a = if c.1 = a then c.2 else Memory.read m a := by
  unfold Memory.read
  by_cases h : c.1 = a <;> simp [Memory.find, h]

/-- An address below every listed address reads as unlisted. -/
theorem Memory.read_of_all_gt (m : Memory) (a : Nat) (h : ∀ c ∈ m, a < c.1) : Memory.read m a = resetByte a := by
  induction m with
  | nil => rfl
  | cons c m ih =>
    have hc := h c (by simp)
    rw [Memory.read_cons, if_neg (by omega), ih fun d hd => h d (by simp [hd])]

theorem Memory.read_cell_other (a : Nat) (b : Byte) (m : Memory) (c : Nat) (h : c ≠ a) :
    Memory.read (Memory.cell a b m) c = Memory.read m c := by
  unfold Memory.cell
  split
  · rfl
  · rw [Memory.read_cons, if_neg (by simpa using Ne.symm h)]

theorem Memory.read_cell_same (a : Nat) (b : Byte) (m : Memory) (h : ∀ c ∈ m, a < c.1) :
    Memory.read (Memory.cell a b m) a = b := by
  unfold Memory.cell
  split
  · next e => rw [Memory.read_of_all_gt m a h, e]
  · rw [Memory.read_cons, if_pos rfl]

/-- A write changes no other byte. -/
theorem Memory.read_write_other (m : Memory) (a : Nat) (b : Byte) (c : Nat) (h : c ≠ a) :
    Memory.read (Memory.write m a b) c = Memory.read m c := by
  induction m with
  | nil => exact Memory.read_cell_other a b [] c h
  | cons d m ih =>
    unfold Memory.write
    split
    · exact Memory.read_cell_other a b (d :: m) c h
    · split
      · next e => rw [Memory.read_cell_other a b m c h, Memory.read_cons, if_neg (by omega)]
      · rw [Memory.read_cons, Memory.read_cons, ih]

/-- A read after a write to the same address gives the byte written. -/
theorem Memory.read_write_same (m : Memory) (a : Nat) (b : Byte) (hm : m.Pairwise fun c d => c.1 < d.1) :
    Memory.read (Memory.write m a b) a = b := by
  induction m with
  | nil => exact Memory.read_cell_same a b [] (by simp)
  | cons d m ih =>
    rw [List.pairwise_cons] at hm
    unfold Memory.write
    split
    · next h =>
      refine Memory.read_cell_same a b (d :: m) fun c hc => ?_
      rcases List.mem_cons.1 hc with rfl | hc
      · exact h
      · exact Nat.lt_trans h (hm.1 c hc)
    · split
      · next e => exact Memory.read_cell_same a b m fun c hc => e ▸ hm.1 c hc
      · next h1 h2 => rw [Memory.read_cons, if_neg (by omega), ih hm.2]

/-- Every cell of a memory after a write is the written one or was there before. -/
theorem Memory.mem_write (m : Memory) (a : Nat) (b : Byte) (c : Host.Cell) (h : c ∈ Memory.write m a b) :
    (c = (a, b) ∧ b ≠ resetByte a) ∨ c ∈ m := by
  have cell (m : Memory) (h : c ∈ Memory.cell a b m) : (c = (a, b) ∧ b ≠ resetByte a) ∨ c ∈ m := by
    unfold Memory.cell at h
    split at h
    · exact .inr h
    · next hb =>
      rcases List.mem_cons.1 h with h | h
      · exact .inl ⟨h, hb⟩
      · exact .inr h
  induction m with
  | nil => exact cell [] h
  | cons d m ih =>
    unfold Memory.write at h
    split at h
    · exact cell _ h
    · split at h
      · rcases cell m h with h | h
        · exact .inl h
        · exact .inr (by simp [h])
      · rcases List.mem_cons.1 h with h | h
        · exact .inr (by simp [h])
        · rcases ih h with h | h
          · exact .inl h
          · exact .inr (by simp [h])

theorem Memory.pairwise_write (m : Memory) (a : Nat) (b : Byte) (hm : m.Pairwise fun c d => c.1 < d.1) :
    (Memory.write m a b).Pairwise fun c d => c.1 < d.1 := by
  have cell (m : Memory) (hm : m.Pairwise fun c d => c.1 < d.1) (h : ∀ c ∈ m, a < c.1) :
      (Memory.cell a b m).Pairwise fun c d => c.1 < d.1 := by
    unfold Memory.cell
    split
    · exact hm
    · exact List.pairwise_cons.2 ⟨h, hm⟩
  induction m with
  | nil => exact cell [] hm (by simp)
  | cons d m ih =>
    have hm' := List.pairwise_cons.1 hm
    unfold Memory.write
    split
    · next h =>
      refine cell _ hm fun c hc => ?_
      rcases List.mem_cons.1 hc with rfl | hc
      · exact h
      · exact Nat.lt_trans h (hm'.1 c hc)
    · split
      · next e => exact cell m hm'.2 fun c hc => e ▸ hm'.1 c hc
      · next h1 h2 =>
        refine List.pairwise_cons.2 ⟨fun c hc => ?_, ih hm'.2⟩
        rcases Memory.mem_write m a b c hc with ⟨rfl, _⟩ | hc
        · show d.1 < a
          omega
        · exact hm'.1 c hc

/-- A write inside the address space keeps the canonical form. -/
theorem Memory.wf_write (m : Memory) (a : Nat) (b : Byte) (hm : Memory.wf m) (ha : a < 4096) :
    Memory.wf (Memory.write m a b) := by
  refine ⟨Memory.pairwise_write m a b hm.1, fun c hc => ?_⟩
  rcases Memory.mem_write m a b c hc with ⟨rfl, hb⟩ | hc
  · exact ⟨ha, hb⟩
  · exact hm.2 c hc

theorem Memory.pairwise_writeBytes (m : Memory) (a : Nat) (bs : List Byte) (hm : m.Pairwise fun c d => c.1 < d.1) :
    (Memory.writeBytes m a bs).Pairwise fun c d => c.1 < d.1 := by
  induction bs generalizing m a with
  | nil => exact hm
  | cons b bs ih => exact ih _ _ (Memory.pairwise_write m a b hm)

/-- Writing bytes inside the address space keeps the canonical form. -/
theorem Memory.wf_writeBytes (m : Memory) (a : Nat) (bs : List Byte) (hm : Memory.wf m) (ha : a + bs.length ≤ 4096) :
    Memory.wf (Memory.writeBytes m a bs) := by
  induction bs generalizing m a with
  | nil => exact hm
  | cons b bs ih =>
    rw [List.length_cons] at ha
    exact ih _ _ (Memory.wf_write m a b hm (by omega)) (by omega)

/-- Writing bytes changes no byte outside them. -/
theorem Memory.read_writeBytes_outside (m : Memory) (a : Nat) (bs : List Byte) (c : Nat)
    (h : c < a ∨ a + bs.length ≤ c) : Memory.read (Memory.writeBytes m a bs) c = Memory.read m c := by
  induction bs generalizing m a with
  | nil => rfl
  | cons b bs ih =>
    rw [List.length_cons] at h
    rw [Memory.writeBytes, ih _ _ (by omega), Memory.read_write_other m a b c (by omega)]

/-- Each byte written reads back. -/
theorem Memory.read_writeBytes_inside (m : Memory) (a : Nat) (bs : List Byte) (k : Nat) (hk : k < bs.length)
    (hm : m.Pairwise fun c d => c.1 < d.1) : Memory.read (Memory.writeBytes m a bs) (a + k) = bs[k] := by
  induction bs generalizing m a k with
  | nil => simp at hk
  | cons b bs ih =>
    rw [Memory.writeBytes]
    cases k with
    | zero =>
      rw [Memory.read_writeBytes_outside _ _ _ _ (by omega)]
      exact Memory.read_write_same m a b hm
    | succ k =>
      have := ih (Memory.write m a b) (a + 1) k (by simpa using hk) (Memory.pairwise_write m a b hm)
      simpa [Nat.add_assoc, Nat.add_comm 1 k] using this

end Sys2Proof.Machine
end

