-- ==== Sys2Proof/Laws/State.lean ====
section
/-! SUPPORT. One lemma per field per update of the state. -/

namespace Sys2Proof.Machine

@[simp] theorem State.setV_v (s : State) (x : Reg) (b : Byte) : (s.setV x b).v = s.v.set x.val b x.isLt := rfl
@[simp] theorem State.setV_flag (s : State) (x : Reg) (b : Byte) : (s.setV x b).flag = s.flag := rfl
@[simp] theorem State.setV_i (s : State) (x : Reg) (b : Byte) : (s.setV x b).i = s.i := rfl
@[simp] theorem State.setV_dt (s : State) (x : Reg) (b : Byte) : (s.setV x b).dt = s.dt := rfl
@[simp] theorem State.setV_st (s : State) (x : Reg) (b : Byte) : (s.setV x b).st = s.st := rfl
@[simp] theorem State.setV_pc (s : State) (x : Reg) (b : Byte) : (s.setV x b).pc = s.pc := rfl
@[simp] theorem State.setV_sp (s : State) (x : Reg) (b : Byte) : (s.setV x b).sp = s.sp := rfl
@[simp] theorem State.setV_stack (s : State) (x : Reg) (b : Byte) : (s.setV x b).stack = s.stack := rfl
@[simp] theorem State.setV_mem (s : State) (x : Reg) (b : Byte) : (s.setV x b).mem = s.mem := rfl
@[simp] theorem State.setV_fb (s : State) (x : Reg) (b : Byte) : (s.setV x b).fb = s.fb := rfl
@[simp] theorem State.setV_inputs (s : State) (x : Reg) (b : Byte) : (s.setV x b).inputs = s.inputs := rfl

@[simp] theorem State.setFlag_v (s : State) (b : Bool) :
    (s.setFlag b).v = if s.flagAliased then s.v.set 15 (if b then 1#8 else 0#8) else s.v := rfl
@[simp] theorem State.setFlag_flag (s : State) (b : Bool) : (s.setFlag b).flag = s.flag.write b := rfl
@[simp] theorem State.setFlag_i (s : State) (b : Bool) : (s.setFlag b).i = s.i := rfl
@[simp] theorem State.setFlag_dt (s : State) (b : Bool) : (s.setFlag b).dt = s.dt := rfl
@[simp] theorem State.setFlag_st (s : State) (b : Bool) : (s.setFlag b).st = s.st := rfl
@[simp] theorem State.setFlag_pc (s : State) (b : Bool) : (s.setFlag b).pc = s.pc := rfl
@[simp] theorem State.setFlag_sp (s : State) (b : Bool) : (s.setFlag b).sp = s.sp := rfl
@[simp] theorem State.setFlag_stack (s : State) (b : Bool) : (s.setFlag b).stack = s.stack := rfl
@[simp] theorem State.setFlag_mem (s : State) (b : Bool) : (s.setFlag b).mem = s.mem := rfl
@[simp] theorem State.setFlag_fb (s : State) (b : Bool) : (s.setFlag b).fb = s.fb := rfl
@[simp] theorem State.setFlag_inputs (s : State) (b : Bool) : (s.setFlag b).inputs = s.inputs := rfl

@[simp] theorem State.setPrefix_v (s : State) (bs : List Byte) : (s.setPrefix bs).v = Vector.ofFn fun k : Fin 16 => bs.getD k.val (s.v.get k) := rfl
@[simp] theorem State.setPrefix_flag (s : State) (bs : List Byte) : (s.setPrefix bs).flag = s.flag := rfl
@[simp] theorem State.setPrefix_i (s : State) (bs : List Byte) : (s.setPrefix bs).i = s.i := rfl
@[simp] theorem State.setPrefix_dt (s : State) (bs : List Byte) : (s.setPrefix bs).dt = s.dt := rfl
@[simp] theorem State.setPrefix_st (s : State) (bs : List Byte) : (s.setPrefix bs).st = s.st := rfl
@[simp] theorem State.setPrefix_pc (s : State) (bs : List Byte) : (s.setPrefix bs).pc = s.pc := rfl
@[simp] theorem State.setPrefix_sp (s : State) (bs : List Byte) : (s.setPrefix bs).sp = s.sp := rfl
@[simp] theorem State.setPrefix_stack (s : State) (bs : List Byte) : (s.setPrefix bs).stack = s.stack := rfl
@[simp] theorem State.setPrefix_mem (s : State) (bs : List Byte) : (s.setPrefix bs).mem = s.mem := rfl
@[simp] theorem State.setPrefix_fb (s : State) (bs : List Byte) : (s.setPrefix bs).fb = s.fb := rfl
@[simp] theorem State.setPrefix_inputs (s : State) (bs : List Byte) : (s.setPrefix bs).inputs = s.inputs := rfl

@[simp] theorem State.advance_v (s : State) : (s.advance).v = s.v := rfl
@[simp] theorem State.advance_flag (s : State) : (s.advance).flag = s.flag := rfl
@[simp] theorem State.advance_i (s : State) : (s.advance).i = s.i := rfl
@[simp] theorem State.advance_dt (s : State) : (s.advance).dt = s.dt := rfl
@[simp] theorem State.advance_st (s : State) : (s.advance).st = s.st := rfl
@[simp] theorem State.advance_pc (s : State) : (s.advance).pc = s.pc + 2#16 := rfl
@[simp] theorem State.advance_sp (s : State) : (s.advance).sp = s.sp := rfl
@[simp] theorem State.advance_stack (s : State) : (s.advance).stack = s.stack := rfl
@[simp] theorem State.advance_mem (s : State) : (s.advance).mem = s.mem := rfl
@[simp] theorem State.advance_fb (s : State) : (s.advance).fb = s.fb := rfl
@[simp] theorem State.advance_inputs (s : State) : (s.advance).inputs = s.inputs := rfl

@[simp] theorem State.skipWhen_v (s : State) (c : Bool) : (s.skipWhen c).v = s.v := rfl
@[simp] theorem State.skipWhen_flag (s : State) (c : Bool) : (s.skipWhen c).flag = s.flag := rfl
@[simp] theorem State.skipWhen_i (s : State) (c : Bool) : (s.skipWhen c).i = s.i := rfl
@[simp] theorem State.skipWhen_dt (s : State) (c : Bool) : (s.skipWhen c).dt = s.dt := rfl
@[simp] theorem State.skipWhen_st (s : State) (c : Bool) : (s.skipWhen c).st = s.st := rfl
@[simp] theorem State.skipWhen_pc (s : State) (c : Bool) : (s.skipWhen c).pc = s.pc + (if c then 4#16 else 2#16) := rfl
@[simp] theorem State.skipWhen_sp (s : State) (c : Bool) : (s.skipWhen c).sp = s.sp := rfl
@[simp] theorem State.skipWhen_stack (s : State) (c : Bool) : (s.skipWhen c).stack = s.stack := rfl
@[simp] theorem State.skipWhen_mem (s : State) (c : Bool) : (s.skipWhen c).mem = s.mem := rfl
@[simp] theorem State.skipWhen_fb (s : State) (c : Bool) : (s.skipWhen c).fb = s.fb := rfl
@[simp] theorem State.skipWhen_inputs (s : State) (c : Bool) : (s.skipWhen c).inputs = s.inputs := rfl

@[simp] theorem State.tick_v (s : State) : (s.tick).v = s.v := rfl
@[simp] theorem State.tick_flag (s : State) : (s.tick).flag = s.flag := rfl
@[simp] theorem State.tick_i (s : State) : (s.tick).i = s.i := rfl
@[simp] theorem State.tick_dt (s : State) : (s.tick).dt = decrement s.dt := rfl
@[simp] theorem State.tick_st (s : State) : (s.tick).st = decrement s.st := rfl
@[simp] theorem State.tick_pc (s : State) : (s.tick).pc = s.pc := rfl
@[simp] theorem State.tick_sp (s : State) : (s.tick).sp = s.sp := rfl
@[simp] theorem State.tick_stack (s : State) : (s.tick).stack = s.stack := rfl
@[simp] theorem State.tick_mem (s : State) : (s.tick).mem = s.mem := rfl
@[simp] theorem State.tick_fb (s : State) : (s.tick).fb = s.fb := rfl
@[simp] theorem State.tick_inputs (s : State) : (s.tick).inputs = s.inputs := rfl

@[simp] theorem State.tickTimes_v (s : State) (n : Nat) : (s.tickTimes n).v = s.v := rfl
@[simp] theorem State.tickTimes_flag (s : State) (n : Nat) : (s.tickTimes n).flag = s.flag := rfl
@[simp] theorem State.tickTimes_i (s : State) (n : Nat) : (s.tickTimes n).i = s.i := rfl
@[simp] theorem State.tickTimes_dt (s : State) (n : Nat) : (s.tickTimes n).dt = countDown n s.dt := rfl
@[simp] theorem State.tickTimes_st (s : State) (n : Nat) : (s.tickTimes n).st = countDown n s.st := rfl
@[simp] theorem State.tickTimes_pc (s : State) (n : Nat) : (s.tickTimes n).pc = s.pc := rfl
@[simp] theorem State.tickTimes_sp (s : State) (n : Nat) : (s.tickTimes n).sp = s.sp := rfl
@[simp] theorem State.tickTimes_stack (s : State) (n : Nat) : (s.tickTimes n).stack = s.stack := rfl
@[simp] theorem State.tickTimes_mem (s : State) (n : Nat) : (s.tickTimes n).mem = s.mem := rfl
@[simp] theorem State.tickTimes_fb (s : State) (n : Nat) : (s.tickTimes n).fb = s.fb := rfl
@[simp] theorem State.tickTimes_inputs (s : State) (n : Nat) : (s.tickTimes n).inputs = s.inputs := rfl

@[simp] theorem State.boundary_v (s : State) : (s.boundary).v = s.v := rfl
@[simp] theorem State.boundary_flag (s : State) : (s.boundary).flag = s.flag := rfl
@[simp] theorem State.boundary_i (s : State) : (s.boundary).i = s.i := rfl
@[simp] theorem State.boundary_dt (s : State) : (s.boundary).dt = countDown s.inputs.tickCount.1 s.dt := rfl
@[simp] theorem State.boundary_st (s : State) : (s.boundary).st = countDown s.inputs.tickCount.1 s.st := rfl
@[simp] theorem State.boundary_pc (s : State) : (s.boundary).pc = s.pc := rfl
@[simp] theorem State.boundary_sp (s : State) : (s.boundary).sp = s.sp := rfl
@[simp] theorem State.boundary_stack (s : State) : (s.boundary).stack = s.stack := rfl
@[simp] theorem State.boundary_mem (s : State) : (s.boundary).mem = s.mem := rfl
@[simp] theorem State.boundary_fb (s : State) : (s.boundary).fb = s.fb := rfl
@[simp] theorem State.boundary_inputs (s : State) : (s.boundary).inputs = s.inputs.tickCount.2 := rfl

end Sys2Proof.Machine
end

