-- ==== Sys2Proof/Laws/Ops.lean ====
section
/-! SUPPORT. One lemma per shared operation that says everything it can do, and the reads of registers after each write. -/

namespace Sys2Proof.Machine

/-! ## Registers -/

theorem State.getV_congr (s t : State) (h : t.v = s.v) (k : Reg) : t.getV k = s.getV k := by
  unfold State.getV
  rw [h]

@[simp] theorem State.getV_setV (s : State) (x k : Reg) (b : Byte) :
    (s.setV x b).getV k = if k = x then b else s.getV k := by
  simp only [State.getV, State.setV, Vector.get_eq_getElem, Vector.getElem_set, Fin.ext_iff, eq_comm]

@[simp] theorem FlagStore.write_register15 (b : Bool) : FlagStore.register15.write b = .register15 := rfl
@[simp] theorem FlagStore.write_cell (c b : Bool) : (FlagStore.cell c).write b = .cell b := rfl

theorem State.flagAliased_congr (s t : State) (h : t.flag = s.flag) : t.flagAliased = s.flagAliased := by
  unfold State.flagAliased
  rw [h]

/-- A flag write does not change where the flag lives. -/
@[simp] theorem State.flagAliased_setFlag (s : State) (b : Bool) : (s.setFlag b).flagAliased = s.flagAliased := by
  unfold State.flagAliased
  rw [State.setFlag_flag]
  cases s.flag <;> rfl

@[simp] theorem State.flagAliased_setV (s : State) (x : Reg) (b : Byte) : (s.setV x b).flagAliased = s.flagAliased := rfl
@[simp] theorem State.flagAliased_advance (s : State) : s.advance.flagAliased = s.flagAliased := rfl
@[simp] theorem State.flagAliased_boundary (s : State) : s.boundary.flagAliased = s.flagAliased := rfl

@[simp] theorem State.getV_setFlag (s : State) (b : Bool) (k : Reg) :
    (s.setFlag b).getV k = if k = 15 ∧ s.flagAliased = true then (if b then 1#8 else 0#8) else s.getV k := by
  by_cases ha : s.flagAliased = true
  · have h : (s.setFlag b).v = (s.setV 15 (if b then 1#8 else 0#8)).v := by rw [State.setFlag_v, if_pos ha]; rfl
    rw [State.getV_congr _ _ h, State.getV_setV]
    simp [ha]
  · have h : (s.setFlag b).v = s.v := by rw [State.setFlag_v, if_neg ha]
    rw [State.getV_congr _ _ h]
    simp [ha]

@[simp] theorem State.getV_setPrefix (s : State) (bs : List Byte) (k : Reg) :
    (s.setPrefix bs).getV k = bs.getD k.val (s.getV k) := by
  simp [State.getV, State.setPrefix, Vector.get_eq_getElem]

@[simp] theorem State.getV_advance (s : State) (k : Reg) : s.advance.getV k = s.getV k := rfl
@[simp] theorem State.getV_skipWhen (s : State) (c : Bool) (k : Reg) : (s.skipWhen c).getV k = s.getV k := rfl
@[simp] theorem State.getV_tickTimes (s : State) (n : Nat) (k : Reg) : (s.tickTimes n).getV k = s.getV k := rfl
@[simp] theorem State.getV_boundary (s : State) (k : Reg) : s.boundary.getV k = s.getV k := rfl

@[simp] theorem State.length_getPrefix (s : State) (x : Reg) : (s.getPrefix x).length = x.val + 1 := by
  have := x.isLt
  simp [State.getPrefix]

theorem State.getPrefix_getElem (s : State) (x : Reg) (k : Nat) (hk : k < (s.getPrefix x).length) (hk' : k < 16) :
    (s.getPrefix x)[k] = s.getV ⟨k, hk'⟩ := by
  simp [State.getPrefix, State.getV, Vector.get_eq_getElem]

/-! ## Memory -/

/-- A checked load fails when its last byte lies above 0xFFF, and otherwise answers the bytes. -/
theorem State.load_eq (s : State) (a n : Nat) :
    s.load a n = if 0 < n ∧ 0xFFF < a + n - 1 then .error (.memoryAddressOutOfRange (a + n - 1))
      else .ok ((List.range n).map fun k => Memory.read s.mem (a + k)) := rfl

theorem State.load_ok (s : State) (a n : Nat) (h : n = 0 ∨ a + n ≤ 4096) :
    s.load a n = .ok ((List.range n).map fun k => Memory.read s.mem (a + k)) := by
  rw [State.load_eq, if_neg (by omega)]

theorem State.load_error (s : State) (a n : Nat) (h : 0 < n ∧ 0xFFF < a + n - 1) :
    s.load a n = .error (.memoryAddressOutOfRange (a + n - 1)) := by
  rw [State.load_eq, if_pos h]

/-- What a checked load that succeeds tells. -/
theorem State.load_cases {s : State} {a n : Nat} {bs : List Byte} (h : s.load a n = .ok bs) :
    (n = 0 ∨ a + n ≤ 4096) ∧ bs = (List.range n).map fun k => Memory.read s.mem (a + k) := by
  rw [State.load_eq] at h
  split at h
  · cases h
  · next hn => exact ⟨by omega, by simpa using h.symm⟩

/-- A checked store fails on the guard, then on the range, and otherwise writes the bytes and nothing else. -/
theorem State.store_eq (s : State) (a : Nat) (bs : List Byte) :
    s.store a bs = if a < 0x200 then .error (.memoryWriteGuardViolation a)
      else if 0 < bs.length ∧ 0xFFF < a + bs.length - 1 then .error (.memoryAddressOutOfRange (a + bs.length - 1))
      else .ok { s with mem := Memory.writeBytes s.mem a bs } := rfl

theorem State.store_ok (s : State) (a : Nat) (bs : List Byte) (h1 : 0x200 ≤ a) (h2 : a + bs.length ≤ 4096) :
    s.store a bs = .ok { s with mem := Memory.writeBytes s.mem a bs } := by
  rw [State.store_eq, if_neg (by omega), if_neg (by omega)]

/-- What a checked store that succeeds tells. -/
theorem State.store_cases {s t : State} {a : Nat} {bs : List Byte} (h : s.store a bs = .ok t) :
    0x200 ≤ a ∧ (bs.length = 0 ∨ a + bs.length ≤ 4096) ∧ t = { s with mem := Memory.writeBytes s.mem a bs } := by
  rw [State.store_eq] at h
  split at h
  · cases h
  · split at h
    · cases h
    · exact ⟨by omega, by omega, by simpa using h.symm⟩

/-! ## Control -/

/-- What `CheckTarget` accepts: an even address in 0x200..0xFFE, answered as the new `pc`. -/
theorem checkTarget_ok_iff (t : Nat) (pc : Word) :
    checkTarget t = .ok pc ↔ (0x200 ≤ t ∧ t ≤ 0xFFF ∧ t % 2 = 0) ∧ pc = BitVec.ofNat 16 t := by
  unfold checkTarget
  split
  · simp; omega
  · split
    · simp; omega
    · split
      · simp; omega
      · rw [Except.ok.injEq, eq_comm (a := pc)]
        constructor
        · exact fun h => ⟨by omega, h⟩
        · exact fun h => h.2

theorem checkTarget_cases (t : Nat) :
    (checkTarget t = .error (.programCounterOutOfRange t) ∧ (t < 0x200 ∨ 0xFFF < t)) ∨
    (checkTarget t = .error (.programCounterMisaligned t) ∧ 0x200 ≤ t ∧ t ≤ 0xFFF ∧ t % 2 = 1) ∨
    (checkTarget t = .ok (BitVec.ofNat 16 t) ∧ 0x200 ≤ t ∧ t ≤ 0xFFF ∧ t % 2 = 0) := by
  unfold checkTarget
  split
  · exact .inl ⟨rfl, by omega⟩
  · split
    · exact .inl ⟨rfl, by omega⟩
    · split
      · exact .inr (.inl ⟨rfl, by omega⟩)
      · exact .inr (.inr ⟨rfl, by omega⟩)

theorem State.push_ok (s : State) (w : Word) (h : s.sp.val < 16) :
    s.push w = .ok { s with stack := s.stack.set s.sp.val w h, sp := ⟨s.sp.val + 1, Nat.succ_lt_succ h⟩ } := dif_pos h

theorem State.push_full (s : State) (w : Word) (h : ¬ s.sp.val < 16) : s.push w = .error .callStackOverflow := dif_neg h

theorem State.pop_ok (s : State) (h : 0 < s.sp.val) :
    s.pop = .ok (s.stack[s.sp.val - 1]'(by omega), { s with sp := ⟨s.sp.val - 1, by omega⟩ }) := dif_pos h

theorem State.pop_empty (s : State) (h : ¬ 0 < s.sp.val) : s.pop = .error .callStackUnderflow := dif_neg h

theorem State.digit_ok (s : State) (x : Reg) (h : (s.getV x).toNat < 16) :
    s.digit x = .ok ⟨(s.getV x).toNat, h⟩ := dif_pos h

theorem State.digit_error (s : State) (x : Reg) (h : ¬ (s.getV x).toNat < 16) :
    s.digit x = .error (.registerValueOutOfRange (s.getV x)) := dif_neg h

/-- A fetch fails only above 0xFFE, and otherwise answers the big-endian word at `pc`. -/
theorem State.fetch_eq (s : State) :
    s.fetch = if 0xFFE < s.pc.toNat then .error (.programCounterOutOfRange s.pc.toNat)
      else .ok (wordOfBytes (Memory.read s.mem s.pc.toNat) (Memory.read s.mem (s.pc.toNat + 1))) := rfl

/-! ## Outcomes -/

@[simp] theorem raise_eq (f : Fault) : raise f = .fault f := rfl

/-! ## Timers -/

@[simp] theorem countDown_zero (t : Byte) : countDown 0 t = t := by
  unfold countDown
  split <;> simp_all

/-- One more tick is one decrement after the others. -/
theorem countDown_succ (n : Nat) (t : Byte) : countDown (n + 1) t = decrement (countDown n t) := by
  have ht := t.isLt
  unfold countDown decrement
  by_cases h0 : t = 0#8
  · simp [h0]
  · simp only [if_neg h0]
    have hne : t.toNat ≠ 0 := fun h => h0 (BitVec.eq_of_toNat_eq (by simpa using h))
    split
    · next h =>
      have h' := congrArg BitVec.toNat h
      simp only [BitVec.toNat_ofNat] at h'
      apply BitVec.eq_of_toNat_eq
      simp only [BitVec.toNat_ofNat]
      omega
    · next h =>
      have h' : (BitVec.ofNat 8 (t.toNat - n)).toNat ≠ 0 := fun e => h (BitVec.eq_of_toNat_eq (by simpa using e))
      simp only [BitVec.toNat_ofNat] at h'
      apply BitVec.eq_of_toNat_eq
      simp only [BitVec.toNat_ofNat, BitVec.toNat_sub]
      omega

/-- A timer after any number of ticks. -/
theorem countDown_toNat (n : Nat) (t : Byte) : (countDown n t).toNat = t.toNat - n := by
  have ht := t.isLt
  unfold countDown
  split
  · next h => simp [h]
  · simp only [BitVec.toNat_ofNat]
    omega

@[simp] theorem State.tickTimes_zero (s : State) : s.tickTimes 0 = s := by
  simp [State.tickTimes]

theorem State.tickTimes_succ (s : State) (n : Nat) : s.tickTimes (n + 1) = (s.tickTimes n).tick := by
  simp [State.tickTimes, State.tick, countDown_succ]

end Sys2Proof.Machine
end

