-- ==== Sys2Proof/Laws/PerInstr.lean ====
section
/-! SUPPORT. Per instruction: the word the encoder gives an instruction lies in the row of the opcode table that stands for
it (30_encoding.md R66), whatever its operands. Not that no earlier row takes it: that is the round trip's. -/

namespace Sys2Proof

/-- The place of an instruction's row in the opcode table, the first row 0 (R66). -/
def rowIndex : Instr → Nat
  | .cls => 0
  | .ret => 1
  | .sys _ => 2
  | .jp _ => 3
  | .call _ => 4
  | .seImm _ _ => 5
  | .sneImm _ _ => 6
  | .seReg _ _ => 7
  | .ldImm _ _ => 8
  | .addImm _ _ => 9
  | .ldReg _ _ => 10
  | .orReg _ _ => 11
  | .andReg _ _ => 12
  | .xorReg _ _ => 13
  | .addReg _ _ => 14
  | .subReg _ _ => 15
  | .shr _ _ => 16
  | .subnReg _ _ => 17
  | .shl _ _ => 18
  | .sneReg _ _ => 19
  | .ldI _ => 20
  | .jpV0 _ => 21
  | .rnd _ _ => 22
  | .drw _ _ _ => 23
  | .skp _ => 24
  | .sknp _ => 25
  | .ldVxDT _ => 26
  | .ldVxK _ => 27
  | .ldDTVx _ => 28
  | .ldSTVx _ => 29
  | .addI _ => 30
  | .ldF _ => 31
  | .ldB _ => 32
  | .ldMemVx _ => 33
  | .ldVxMem _ => 34
  | .dw _ => 35

/-- The instruction's word has the pattern of its row under the row's mask (R66). -/
def Laws.EncodesInRow.Statement (i : Instr) : Prop :=
  ∃ r, opcodeTable[rowIndex i]? = some r ∧ rowMatches r (encode i) = true

theorem Laws.EncodesInRow.cls : Laws.EncodesInRow.Statement (.cls) := by
  exact ⟨_, rfl, by decide⟩

theorem Laws.EncodesInRow.ret : Laws.EncodesInRow.Statement (.ret) := by
  exact ⟨_, rfl, by decide⟩

theorem Laws.EncodesInRow.sys (nnn : Addr) : Laws.EncodesInRow.Statement (.sys nnn) := by
  refine ⟨_, rfl, (rowMatches_iff _ _).2 ?_⟩
  have := nnn.isLt
  simp only [encode, and_F000, formatA_toNat, BitVec.toNat_ofNat]
  omega

theorem Laws.EncodesInRow.jp (nnn : Addr) : Laws.EncodesInRow.Statement (.jp nnn) := by
  refine ⟨_, rfl, (rowMatches_iff _ _).2 ?_⟩
  have := nnn.isLt
  simp only [encode, and_F000, formatA_toNat, BitVec.toNat_ofNat]
  omega

theorem Laws.EncodesInRow.call (nnn : Addr) : Laws.EncodesInRow.Statement (.call nnn) := by
  refine ⟨_, rfl, (rowMatches_iff _ _).2 ?_⟩
  have := nnn.isLt
  simp only [encode, and_F000, formatA_toNat, BitVec.toNat_ofNat]
  omega

theorem Laws.EncodesInRow.seImm (x : Reg) (kk : Byte) : Laws.EncodesInRow.Statement (.seImm x kk) := by
  refine ⟨_, rfl, (rowMatches_iff _ _).2 ?_⟩
  have := x.isLt
  have := kk.isLt
  simp only [encode, and_F000, formatXK_toNat, BitVec.toNat_ofNat]
  omega

theorem Laws.EncodesInRow.sneImm (x : Reg) (kk : Byte) : Laws.EncodesInRow.Statement (.sneImm x kk) := by
  refine ⟨_, rfl, (rowMatches_iff _ _).2 ?_⟩
  have := x.isLt
  have := kk.isLt
  simp only [encode, and_F000, formatXK_toNat, BitVec.toNat_ofNat]
  omega

theorem Laws.EncodesInRow.seReg (x : Reg) (y : Reg) : Laws.EncodesInRow.Statement (.seReg x y) := by
  refine ⟨_, rfl, (rowMatches_iff _ _).2 ?_⟩
  have := x.isLt
  have := y.isLt
  simp only [encode, and_F00F, formatXYN_toNat, BitVec.toNat_ofNat]
  omega

theorem Laws.EncodesInRow.ldImm (x : Reg) (kk : Byte) : Laws.EncodesInRow.Statement (.ldImm x kk) := by
  refine ⟨_, rfl, (rowMatches_iff _ _).2 ?_⟩
  have := x.isLt
  have := kk.isLt
  simp only [encode, and_F000, formatXK_toNat, BitVec.toNat_ofNat]
  omega

theorem Laws.EncodesInRow.addImm (x : Reg) (kk : Byte) : Laws.EncodesInRow.Statement (.addImm x kk) := by
  refine ⟨_, rfl, (rowMatches_iff _ _).2 ?_⟩
  have := x.isLt
  have := kk.isLt
  simp only [encode, and_F000, formatXK_toNat, BitVec.toNat_ofNat]
  omega

theorem Laws.EncodesInRow.ldReg (x : Reg) (y : Reg) : Laws.EncodesInRow.Statement (.ldReg x y) := by
  refine ⟨_, rfl, (rowMatches_iff _ _).2 ?_⟩
  have := x.isLt
  have := y.isLt
  simp only [encode, and_F00F, formatXYN_toNat, BitVec.toNat_ofNat]
  omega

theorem Laws.EncodesInRow.orReg (x : Reg) (y : Reg) : Laws.EncodesInRow.Statement (.orReg x y) := by
  refine ⟨_, rfl, (rowMatches_iff _ _).2 ?_⟩
  have := x.isLt
  have := y.isLt
  simp only [encode, and_F00F, formatXYN_toNat, BitVec.toNat_ofNat]
  omega

theorem Laws.EncodesInRow.andReg (x : Reg) (y : Reg) : Laws.EncodesInRow.Statement (.andReg x y) := by
  refine ⟨_, rfl, (rowMatches_iff _ _).2 ?_⟩
  have := x.isLt
  have := y.isLt
  simp only [encode, and_F00F, formatXYN_toNat, BitVec.toNat_ofNat]
  omega

theorem Laws.EncodesInRow.xorReg (x : Reg) (y : Reg) : Laws.EncodesInRow.Statement (.xorReg x y) := by
  refine ⟨_, rfl, (rowMatches_iff _ _).2 ?_⟩
  have := x.isLt
  have := y.isLt
  simp only [encode, and_F00F, formatXYN_toNat, BitVec.toNat_ofNat]
  omega

theorem Laws.EncodesInRow.addReg (x : Reg) (y : Reg) : Laws.EncodesInRow.Statement (.addReg x y) := by
  refine ⟨_, rfl, (rowMatches_iff _ _).2 ?_⟩
  have := x.isLt
  have := y.isLt
  simp only [encode, and_F00F, formatXYN_toNat, BitVec.toNat_ofNat]
  omega

theorem Laws.EncodesInRow.subReg (x : Reg) (y : Reg) : Laws.EncodesInRow.Statement (.subReg x y) := by
  refine ⟨_, rfl, (rowMatches_iff _ _).2 ?_⟩
  have := x.isLt
  have := y.isLt
  simp only [encode, and_F00F, formatXYN_toNat, BitVec.toNat_ofNat]
  omega

theorem Laws.EncodesInRow.shr (x : Reg) (y : Reg) : Laws.EncodesInRow.Statement (.shr x y) := by
  refine ⟨_, rfl, (rowMatches_iff _ _).2 ?_⟩
  have := x.isLt
  have := y.isLt
  simp only [encode, and_F00F, formatXYN_toNat, BitVec.toNat_ofNat]
  omega

theorem Laws.EncodesInRow.subnReg (x : Reg) (y : Reg) : Laws.EncodesInRow.Statement (.subnReg x y) := by
  refine ⟨_, rfl, (rowMatches_iff _ _).2 ?_⟩
  have := x.isLt
  have := y.isLt
  simp only [encode, and_F00F, formatXYN_toNat, BitVec.toNat_ofNat]
  omega

theorem Laws.EncodesInRow.shl (x : Reg) (y : Reg) : Laws.EncodesInRow.Statement (.shl x y) := by
  refine ⟨_, rfl, (rowMatches_iff _ _).2 ?_⟩
  have := x.isLt
  have := y.isLt
  simp only [encode, and_F00F, formatXYN_toNat, BitVec.toNat_ofNat]
  omega

theorem Laws.EncodesInRow.sneReg (x : Reg) (y : Reg) : Laws.EncodesInRow.Statement (.sneReg x y) := by
  refine ⟨_, rfl, (rowMatches_iff _ _).2 ?_⟩
  have := x.isLt
  have := y.isLt
  simp only [encode, and_F00F, formatXYN_toNat, BitVec.toNat_ofNat]
  omega

theorem Laws.EncodesInRow.ldI (nnn : Addr) : Laws.EncodesInRow.Statement (.ldI nnn) := by
  refine ⟨_, rfl, (rowMatches_iff _ _).2 ?_⟩
  have := nnn.isLt
  simp only [encode, and_F000, formatA_toNat, BitVec.toNat_ofNat]
  omega

theorem Laws.EncodesInRow.jpV0 (nnn : Addr) : Laws.EncodesInRow.Statement (.jpV0 nnn) := by
  refine ⟨_, rfl, (rowMatches_iff _ _).2 ?_⟩
  have := nnn.isLt
  simp only [encode, and_F000, formatA_toNat, BitVec.toNat_ofNat]
  omega

theorem Laws.EncodesInRow.rnd (x : Reg) (kk : Byte) : Laws.EncodesInRow.Statement (.rnd x kk) := by
  refine ⟨_, rfl, (rowMatches_iff _ _).2 ?_⟩
  have := x.isLt
  have := kk.isLt
  simp only [encode, and_F000, formatXK_toNat, BitVec.toNat_ofNat]
  omega

theorem Laws.EncodesInRow.drw (x : Reg) (y : Reg) (n : Fin 16) : Laws.EncodesInRow.Statement (.drw x y n) := by
  refine ⟨_, rfl, (rowMatches_iff _ _).2 ?_⟩
  have := x.isLt
  have := y.isLt
  have := n.isLt
  simp only [encode, and_F000, formatXYN_toNat, regField_toNat, BitVec.toNat_ofNat]
  omega

theorem Laws.EncodesInRow.skp (x : Reg) : Laws.EncodesInRow.Statement (.skp x) := by
  refine ⟨_, rfl, (rowMatches_iff _ _).2 ?_⟩
  have := x.isLt
  simp only [encode, and_F0FF, formatXK_toNat, BitVec.toNat_ofNat]
  omega

theorem Laws.EncodesInRow.sknp (x : Reg) : Laws.EncodesInRow.Statement (.sknp x) := by
  refine ⟨_, rfl, (rowMatches_iff _ _).2 ?_⟩
  have := x.isLt
  simp only [encode, and_F0FF, formatXK_toNat, BitVec.toNat_ofNat]
  omega

theorem Laws.EncodesInRow.ldVxDT (x : Reg) : Laws.EncodesInRow.Statement (.ldVxDT x) := by
  refine ⟨_, rfl, (rowMatches_iff _ _).2 ?_⟩
  have := x.isLt
  simp only [encode, and_F0FF, formatXK_toNat, BitVec.toNat_ofNat]
  omega

theorem Laws.EncodesInRow.ldVxK (x : Reg) : Laws.EncodesInRow.Statement (.ldVxK x) := by
  refine ⟨_, rfl, (rowMatches_iff _ _).2 ?_⟩
  have := x.isLt
  simp only [encode, and_F0FF, formatXK_toNat, BitVec.toNat_ofNat]
  omega

theorem Laws.EncodesInRow.ldDTVx (x : Reg) : Laws.EncodesInRow.Statement (.ldDTVx x) := by
  refine ⟨_, rfl, (rowMatches_iff _ _).2 ?_⟩
  have := x.isLt
  simp only [encode, and_F0FF, formatXK_toNat, BitVec.toNat_ofNat]
  omega

theorem Laws.EncodesInRow.ldSTVx (x : Reg) : Laws.EncodesInRow.Statement (.ldSTVx x) := by
  refine ⟨_, rfl, (rowMatches_iff _ _).2 ?_⟩
  have := x.isLt
  simp only [encode, and_F0FF, formatXK_toNat, BitVec.toNat_ofNat]
  omega

theorem Laws.EncodesInRow.addI (x : Reg) : Laws.EncodesInRow.Statement (.addI x) := by
  refine ⟨_, rfl, (rowMatches_iff _ _).2 ?_⟩
  have := x.isLt
  simp only [encode, and_F0FF, formatXK_toNat, BitVec.toNat_ofNat]
  omega

theorem Laws.EncodesInRow.ldF (x : Reg) : Laws.EncodesInRow.Statement (.ldF x) := by
  refine ⟨_, rfl, (rowMatches_iff _ _).2 ?_⟩
  have := x.isLt
  simp only [encode, and_F0FF, formatXK_toNat, BitVec.toNat_ofNat]
  omega

theorem Laws.EncodesInRow.ldB (x : Reg) : Laws.EncodesInRow.Statement (.ldB x) := by
  refine ⟨_, rfl, (rowMatches_iff _ _).2 ?_⟩
  have := x.isLt
  simp only [encode, and_F0FF, formatXK_toNat, BitVec.toNat_ofNat]
  omega

theorem Laws.EncodesInRow.ldMemVx (x : Reg) : Laws.EncodesInRow.Statement (.ldMemVx x) := by
  refine ⟨_, rfl, (rowMatches_iff _ _).2 ?_⟩
  have := x.isLt
  simp only [encode, and_F0FF, formatXK_toNat, BitVec.toNat_ofNat]
  omega

theorem Laws.EncodesInRow.ldVxMem (x : Reg) : Laws.EncodesInRow.Statement (.ldVxMem x) := by
  refine ⟨_, rfl, (rowMatches_iff _ _).2 ?_⟩
  have := x.isLt
  simp only [encode, and_F0FF, formatXK_toNat, BitVec.toNat_ofNat]
  omega

theorem Laws.EncodesInRow.dw (w : Word) : Laws.EncodesInRow.Statement (.dw w) := by
  exact ⟨_, rfl, (rowMatches_iff _ _).2 (by simp [rawDataRow])⟩

end Sys2Proof
end

