-- ==== Sys2Proof/Laws/Steps.lean ====
section
/-! SUPPORT. The operations that several instructions share, and the step itself: one lemma each that says everything it can
answer. And that the canonical form of memory holds at reset and after a word is placed for the next fetch. -/

namespace Sys2Proof.Machine

/-- A checked transfer: the next state has the target as its `pc`, or the target's error is the outcome. -/
theorem State.jumpTo_cases (s : State) (t : Nat) :
    (s.jumpTo t = .fault (.programCounterOutOfRange t) ∧ (t < 0x200 ∨ 0xFFF < t)) ∨
    (s.jumpTo t = .fault (.programCounterMisaligned t) ∧ 0x200 ≤ t ∧ t ≤ 0xFFF ∧ t % 2 = 1) ∨
    (s.jumpTo t = .next { s with pc := BitVec.ofNat 16 t } ∧ 0x200 ≤ t ∧ t ≤ 0xFFF ∧ t % 2 = 0) := by
  unfold State.jumpTo
  rcases checkTarget_cases t with ⟨e, g⟩ | ⟨e, g⟩ | ⟨e, g⟩ <;> rw [e]
  · exact .inl ⟨rfl, g⟩
  · exact .inr (.inl ⟨rfl, g⟩)
  · exact .inr (.inr ⟨rfl, g⟩)

/-- A transfer that succeeds. -/
theorem State.jumpTo_next {s t : State} {a : Nat} (h : s.jumpTo a = .next t) :
    (0x200 ≤ a ∧ a ≤ 0xFFF ∧ a % 2 = 0) ∧ t = { s with pc := BitVec.ofNat 16 a } := by
  rcases s.jumpTo_cases a with ⟨e, -⟩ | ⟨e, -⟩ | ⟨e, g⟩ <;> rw [e] at h <;> cases h
  exact ⟨g, rfl⟩

/-- A store that succeeds: inside 0x200..0xFFF, and only memory and `pc` change. -/
theorem State.storeAtBase_next {s t : State} {bs : List Byte} (h : s.storeAtBase bs = .next t) :
    0x200 ≤ s.i.toNat ∧ (bs.length = 0 ∨ s.i.toNat + bs.length ≤ 4096) ∧
    t = { s with pc := s.pc + 2#16, mem := Memory.writeBytes s.mem s.i.toNat bs } := by
  unfold State.storeAtBase at h
  cases e : s.store s.base bs with
  | error f => rw [e] at h; cases h
  | ok u =>
    rw [e] at h
    cases h
    obtain ⟨h1, h2, h3⟩ := State.store_cases e
    exact ⟨h1, h2, by rw [h3]; rfl⟩

/-- A key skip that succeeds: only `pc` and the inputs change, `pc` by 2 or 4. -/
theorem State.skipOnKey_next {s t : State} {x : Reg} {wanted : Bool} (h : s.skipOnKey x wanted = .next t) :
    ∃ p, (p = s.pc + 2#16 ∨ p = s.pc + 4#16) ∧ t = { s with pc := p, inputs := s.inputs.keySample.2 } := by
  unfold State.skipOnKey at h
  split at h
  · cases h
  · split at h
    · cases h
    · cases h
      unfold State.skipWhen
      split <;> exact ⟨_, by simp, rfl⟩

/-- The flag's value depends on where the flag lives, and on `V[15]` only with FLAG_ALIASED. -/
theorem State.flagByte_congr (s t : State) (hf : t.flag = s.flag) (hv : s.flagAliased = true → t.getV 15 = s.getV 15) :
    t.flagByte = s.flagByte := by
  unfold State.flagByte
  unfold State.flagAliased at hv
  rw [hf]
  cases h : s.flag <;> simp_all

/-- A flag write leaves the flag, wherever it lives. -/
@[simp] theorem State.flagByte_setFlag (s : State) (b : Bool) : (s.setFlag b).flagByte = if b then 1#8 else 0#8 := by
  have ha := State.flagAliased_setFlag s b
  have hv := State.getV_setFlag s b 15
  unfold State.flagByte
  unfold State.flagAliased at ha hv
  rw [State.setFlag_flag] at *
  cases h : s.flag <;> simp_all

/-- A result in a register: that register and `pc`, nothing else. -/
theorem State.result_spec (s : State) (x : Reg) (r : Byte) : ∃ t, s.result x r = .next t ∧ t.getV x = r ∧
    (∀ k, k ≠ x → t.getV k = s.getV k) ∧ t = { s with v := t.v, pc := s.pc + 2#16 } :=
  ⟨_, rfl, by simp, fun k hk => by simp [hk], rfl⟩

/-- A flag and then a result: the result stays where both go to register 15. -/
theorem State.flagThenResult_spec (s : State) (x : Reg) (b : Bool) (r : Byte) :
    ∃ t, s.flagThenResult x b r = .next t ∧ t.getV x = r ∧
    (x ≠ 15 ∨ s.flagAliased = false → t.flagByte = if b then 1#8 else 0#8) ∧
    t.pc = s.pc + 2#16 ∧ SameButRegFlagPc x s t := by
  refine ⟨_, rfl, by simp, fun h => ?_, rfl, fun k hk hk' => ?_, by simp, rfl⟩
  · refine (State.flagByte_congr (s.setFlag b) ((s.setFlag b).setV x r).advance rfl fun ha => ?_).trans (State.flagByte_setFlag s b)
    have hx : (15 : Reg) ≠ x := by
      rcases h with h | h
      · exact h.symm
      · simp [h] at ha
    simp [hx]
  · have : ¬ (k = 15 ∧ s.flagAliased = true) := fun h => by simp [hk' h.1] at h
    simp [hk, this]

/-- What a step that succeeds does: fetch, one instruction, the boundary. -/
theorem step_next {s t : State} (h : step s = .next t) : s.pc.toNat ≤ 0xFFE ∧ ∃ u,
    exec (decode (wordOfBytes (Memory.read s.mem s.pc.toNat) (Memory.read s.mem (s.pc.toNat + 1)))) s = .next u ∧
    t = u.boundary := by
  unfold step at h
  rw [State.fetch_eq] at h
  by_cases hpc : 0xFFE < s.pc.toNat
  · rw [if_pos hpc] at h
    cases h
  · rw [if_neg hpc] at h
    dsimp only at h
    split at h
    · next u e =>
      cases h
      exact ⟨by omega, u, e, rfl⟩
    · cases h
    · cases h

/-! ## The canonical form of memory -/

/-- Memory after reset is in canonical form. -/
theorem Memory.wf_reset : Memory.wf State.reset.mem := by decide

/-- Placing a word for the next fetch keeps the canonical form. -/
theorem Memory.wf_placeWord (s : State) (w : Word) (h : Memory.wf s.mem) : Memory.wf (s.placeWord w).mem := by
  unfold State.placeWord
  refine Memory.wf_writeBytes _ _ _ h ?_
  split
  · simp
  · simp only [List.length_cons, List.length_nil]
    omega

/-- The word placed is what the next step fetches. -/
theorem State.fetch_placeWord (s : State) (w : Word) (h : Memory.wf s.mem) : (s.placeWord w).fetch = .ok w := by
  have hpc : (s.placeWord w).pc.toNat ≤ 0xFFE := by
    unfold State.placeWord
    dsimp only
    split
    · decide
    · omega
  have h0 := Memory.read_writeBytes_inside s.mem (s.placeWord w).pc.toNat [highByte w, lowByte w] 0 (by simp) h.1
  have h1 := Memory.read_writeBytes_inside s.mem (s.placeWord w).pc.toNat [highByte w, lowByte w] 1 (by simp) h.1
  rw [State.fetch_eq, if_neg (by omega)]
  exact congrArg Except.ok ((congrArg₂ wordOfBytes h0 h1).trans (wordOfBytes_high_low w))

end Sys2Proof.Machine
end

