-- ==== Sys2Proof/Tests/Slice0.lean ====
section
/-! SUPPORT. The model's own tests: the well-formedness smoke test, every constructor's decoding from a word written out by hand from the
formats of 30_encoding.md, single steps whose expected results are the vectors of 95_test_vectors.md, and a witness for every
obligation that has hypotheses. -/

namespace Sys2Proof.Tests

open Sys2Proof Sys2Proof.Machine

set_option maxRecDepth 8000

/-! ## Helpers -/

/-- The reset state with one word at 0x200 and no tick at the next boundary (95_test_vectors.md, Conventions). -/
def start (w : Word) : State :=
  let s := State.reset.withFetchWord 16 w.toNat
  { s with inputs := { s.inputs with ticks := [0] } }

/-- The same with some registers set. -/
def startV (w : Word) (rs : List (Reg × Byte)) : State := rs.foldl (fun s r => s.setV r.1 r.2) (start w)

/-- The same with `I` and some bytes of memory set. -/
def startMem (w : Word) (rs : List (Reg × Byte)) (i : Word) (a : Nat) (bs : List Byte) : State :=
  let s := startV w rs
  { s with i := i, mem := Memory.writeBytes s.mem a bs }

/-- The same with the call stack set, the list from the oldest entry to the newest. -/
def startStack (w : Word) (entries : List Word) : State :=
  let s := start w
  { s with sp := Fin.ofNat 17 entries.length, stack := Vector.ofFn fun k : Fin 16 => entries.getD k.val 0#16 }

/-- The outcome is a next state with this property. -/
def gives (r : Result) (p : State → Bool) : Bool :=
  match r with
  | .next s => p s
  | .fault _ => false
  | .refused _ => false

/-- The outcome is this fault. -/
def stops (r : Result) (f : Fault) : Bool :=
  match r with
  | .next _ => false
  | .fault g => g == f
  | .refused _ => false

theorem next_of_gives {r : Result} {p : State → Bool} (h : gives r p = true) : ∃ t, r = .next t ∧ p t = true := by
  cases r with
  | next s => exact ⟨s, rfl, h⟩
  | fault f => cases h
  | refused f => cases h

/-- The next state, or the reset state if there is none: it names the state a witness speaks of. -/
def nextOf (r : Result) : State :=
  match r with
  | .next s => s
  | .fault _ => State.reset
  | .refused _ => State.reset

theorem eq_nextOf {r : Result} (h : gives r (fun _ => true) = true) : r = .next (nextOf r) := by
  obtain ⟨t, e, -⟩ := next_of_gives h
  rw [e]
  rfl

/-- A stop tells the fault. -/
theorem eq_of_stops {r : Result} {f : Fault} (h : stops r f = true) : r = .fault f := by
  cases r with
  | next s => cases h
  | fault g => rw [beq_iff_eq.1 h]
  | refused g => cases h

/-- The default font as the argument of reset-and-load. -/
def defaultFont : Vector Byte 80 := ⟨fontTable.toArray, by decide⟩

/-! ## Well-formedness (WellFormed.lean): one ill-formed term per check -/

theorem test_wf_sys_takes_not_the_word_of_cls : (Instr.sys 0x0E0#12).wf = false := by decide
theorem test_wf_sys_takes_not_the_word_of_ret : (Instr.sys 0x0EE#12).wf = false := by decide
theorem test_wf_dw_takes_no_word_of_an_instruction :
    (Instr.dw 0x5120#16).wf = false ∧ (Instr.dw 0x8128#16).wf = true ∧ (Instr.dw 0x8127#16).wf = false ∧
    (Instr.dw 0x9120#16).wf = false ∧ (Instr.dw 0xE19E#16).wf = false ∧ (Instr.dw 0xF165#16).wf = false ∧
    (Instr.dw 0x0000#16).wf = false := by decide
theorem test_wf_accepts : (Instr.sys 0x0E1#12).wf = true ∧ (Instr.drw 15 15 15).wf = true ∧
    (Instr.dw 0xFFFF#16).wf = true := by decide

/-! ## Decoding: words of the formats of 30_encoding.md R61, written bit by bit -/

theorem test_decode_system_words :
    decode 0b0000000011100000#16 = .cls ∧
    decode 0b0000000011101110#16 = .ret ∧
    decode 0b0000111101011010#16 = .sys 0xF5A#12 := by decide

theorem test_decode_jumps :
    decode 0b0001001000110100#16 = .jp 0x234#12 ∧
    decode 0b0010101010111100#16 = .call 0xABC#12 ∧
    decode 0b1011010001010110#16 = .jpV0 0x456#12 := by decide

theorem test_decode_skips :
    decode 0b0011010111000011#16 = .seImm 5 0xC3#8 ∧
    decode 0b0100101000111100#16 = .sneImm 10 0x3C#8 ∧
    decode 0b0101011010010000#16 = .seReg 6 9 ∧
    decode 0b1001011010010000#16 = .sneReg 6 9 := by decide

theorem test_decode_register_loads :
    decode 0b0110010111000011#16 = .ldImm 5 0xC3#8 ∧
    decode 0b0111010111000011#16 = .addImm 5 0xC3#8 ∧
    decode 0b1000011010010000#16 = .ldReg 6 9 := by decide

theorem test_decode_logic :
    decode 0b1000011010010001#16 = .orReg 6 9 ∧
    decode 0b1000011010010010#16 = .andReg 6 9 ∧
    decode 0b1000011010010011#16 = .xorReg 6 9 := by decide

theorem test_decode_arithmetic :
    decode 0b1000011010010100#16 = .addReg 6 9 ∧
    decode 0b1000011010010101#16 = .subReg 6 9 ∧
    decode 0b1000011010010111#16 = .subnReg 6 9 ∧
    decode 0b1100010111000011#16 = .rnd 5 0xC3#8 := by decide

theorem test_decode_shifts :
    decode 0b1000011010010110#16 = .shr 6 9 ∧
    decode 0b1000011010011110#16 = .shl 6 9 := by decide

theorem test_decode_index :
    decode 0b1010001000110100#16 = .ldI 0x234#12 ∧
    decode 0b1111011100011110#16 = .addI 7 ∧
    decode 0b1111011100101001#16 = .ldF 7 := by decide

theorem test_decode_memory :
    decode 0b1111011100110011#16 = .ldB 7 ∧
    decode 0b1111011101010101#16 = .ldMemVx 7 ∧
    decode 0b1111011101100101#16 = .ldVxMem 7 := by decide

theorem test_decode_display_and_keys :
    decode 0b1101000100100011#16 = .drw 1 2 3 ∧
    decode 0b1110011110011110#16 = .skp 7 ∧
    decode 0b1110011110100001#16 = .sknp 7 ∧
    decode 0b1111011100001010#16 = .ldVxK 7 := by decide

theorem test_decode_timers :
    decode 0b1111011100000111#16 = .ldVxDT 7 ∧
    decode 0b1111011100010101#16 = .ldDTVx 7 ∧
    decode 0b1111011100011000#16 = .ldSTVx 7 := by decide

theorem test_decode_raw_data :
    decode 0b0101011010010001#16 = .dw 0x5691#16 ∧
    decode 0b1000011010011111#16 = .dw 0x869F#16 ∧
    decode 0b1111011100000000#16 = .dw 0xF700#16 := by decide

/-- The words of 95_test_vectors.md 2.1 that stand next to an instruction's word. -/
theorem test_decode_neighbours : decode 0x10E0#16 = .jp 0x0E0#12 ∧ decode 0x00E1#16 = .sys 0x0E1#12 ∧
    decode 0xE19F#16 = .dw 0xE19F#16 ∧ decode 0xF175#16 = .dw 0xF175#16 := by decide

theorem test_decode_bytes : decodeBytes [0x12#8, 0x34#8, 0x56#8] = .ok (.jp 0x234#12, [0x56#8]) ∧
    decodeBytes [0x12#8] = .error .truncated ∧ encodeBytes (.jp 0x234#12) = [0x12#8, 0x34#8] := by decide

theorem test_decode_table_word : decodeTableWord 16 0x8126 = some (.shr 1 2) ∧ decodeTableWord 16 0x5121 = some (.dw 0x5121#16) := by
  decide

/-! ## Single steps: the vectors of 95_test_vectors.md, named in each comment -/

/-- G1 -/
theorem test_cls :
    gives (step ({ startV 0x00E0#16 [(15, 1#8)] with fb := Framebuffer.write Framebuffer.clear 3 4 true })) (fun s => !(Framebuffer.read s.fb 3 4) && s.getV 15 == 1#8 && s.pc == 0x202#16) = true := by decide
/-- CF12 -/
theorem test_ret_is_last_in_first_out :
    gives (step (startStack 0x00EE#16 [0x300#16, 0x400#16])) (fun s => s.pc == 0x400#16 && s.sp == 1) = true := by decide
/-- CF13 -/
theorem test_ret_above_memory :
    stops (step (startStack 0x00EE#16 [0x1000#16])) (.programCounterOutOfRange 0x1000) = true := by decide
/-- CF1 -/
theorem test_sys : gives (step (start 0x0123#16)) (fun s => s.pc == 0x202#16) = true := by decide
/-- CF3 -/
theorem test_jp : gives (step (start 0x1FFE#16)) (fun s => s.pc == 0xFFE#16) = true := by decide
/-- CF4 -/
theorem test_jp_odd : stops (step (start 0x1FFF#16)) (.programCounterMisaligned 0xFFF) = true := by decide
/-- S6 -/
theorem test_call :
    gives (step (start 0x2200#16)) (fun s => s.pc == 0x200#16 && s.sp == 1 && s.stack.get 0 == 0x202#16) = true := by decide
/-- CF10 -/
theorem test_call_odd_target_before_overflow :
    stops (step (startStack 0x2301#16 (List.replicate 16 0x202#16))) (.programCounterMisaligned 0x301) = true := by decide
/-- CF24 -/
theorem test_se_imm : gives (step (startV 0x3F01#16 [(15, 1#8)])) (fun s => s.pc == 0x204#16) = true := by decide
/-- CF16 -/
theorem test_se_imm_no : gives (step (startV 0x332B#16 [(3, 0x2A#8)])) (fun s => s.pc == 0x202#16) = true := by decide
/-- CF18 -/
theorem test_sne_imm : gives (step (startV 0x432B#16 [(3, 0x2A#8)])) (fun s => s.pc == 0x204#16) = true := by decide
/-- CF17 -/
theorem test_sne_imm_no : gives (step (startV 0x432A#16 [(3, 0x2A#8)])) (fun s => s.pc == 0x202#16) = true := by decide
/-- CF19 -/
theorem test_se_reg : gives (step (startV 0x5120#16 [(1, 7#8), (2, 7#8)])) (fun s => s.pc == 0x204#16) = true := by decide
/-- CF20 -/
theorem test_se_reg_no : gives (step (startV 0x5120#16 [(1, 7#8), (2, 8#8)])) (fun s => s.pc == 0x202#16) = true := by decide
/-- A2 -/
theorem test_ld_imm_into_the_flag :
    gives (step (startV 0x6F55#16 [(15, 1#8)])) (fun s => s.getV 15 == 0x55#8 && s.pc == 0x202#16) = true := by decide
/-- A3 -/
theorem test_add_imm_wraps :
    gives (step (startV 0x7001#16 [(0, 0xFF#8)])) (fun s => s.getV 0 == 0#8 && s.getV 15 == 0#8) = true := by decide
/-- A5 -/
theorem test_ld_reg : gives (step (startV 0x8120#16 [(2, 0x33#8)])) (fun s => s.getV 1 == 0x33#8) = true := by decide
/-- A6 -/
theorem test_or :
    gives (step (startV 0x8121#16 [(1, 0xF0#8), (2, 0x0F#8), (15, 1#8)])) (fun s => s.getV 1 == 0xFF#8 && s.getV 15 == 1#8) = true := by decide
/-- A7 -/
theorem test_and : gives (step (startV 0x8122#16 [(1, 0xF0#8), (2, 0x3C#8)])) (fun s => s.getV 1 == 0x30#8) = true := by decide
/-- A8 -/
theorem test_xor : gives (step (startV 0x8123#16 [(1, 0xFF#8), (2, 0x0F#8)])) (fun s => s.getV 1 == 0xF0#8) = true := by decide
/-- A14 -/
theorem test_add_reg_into_the_flag :
    gives (step (startV 0x8F14#16 [(15, 0xFF#8), (1, 2#8)])) (fun s => s.getV 15 == 1#8) = true := by decide
/-- A16 -/
theorem test_add_reg_from_the_flag :
    gives (step (startV 0x81F4#16 [(1, 0xFF#8), (15, 1#8)])) (fun s => s.getV 1 == 0#8 && s.getV 15 == 1#8) = true := by decide
/-- A21 -/
theorem test_sub_equal :
    gives (step (startV 0x8125#16 [(1, 7#8), (2, 7#8)])) (fun s => s.getV 1 == 0#8 && s.getV 15 == 0#8) = true := by decide
/-- A19 -/
theorem test_sub_wraps :
    gives (step (startV 0x8125#16 [(1, 5#8), (2, 10#8)])) (fun s => s.getV 1 == 0xFB#8 && s.getV 15 == 0#8 && s.getV 2 == 10#8) = true := by decide
/-- A27 -/
theorem test_shr :
    gives (step (startV 0x8126#16 [(1, 5#8), (2, 0xEE#8)])) (fun s => s.getV 1 == 2#8 && s.getV 15 == 1#8 && s.getV 2 == 0xEE#8) = true := by decide
/-- A31 -/
theorem test_shr_of_the_flag : gives (step (startV 0x8F06#16 [(15, 2#8)])) (fun s => s.getV 15 == 1#8) = true := by decide
/-- A24 -/
theorem test_subn :
    gives (step (startV 0x8127#16 [(1, 5#8), (2, 10#8)])) (fun s => s.getV 1 == 5#8 && s.getV 15 == 1#8) = true := by decide
/-- A25 -/
theorem test_subn_wraps :
    gives (step (startV 0x8127#16 [(1, 10#8), (2, 5#8)])) (fun s => s.getV 1 == 0xFB#8 && s.getV 15 == 0#8) = true := by decide
/-- A32 -/
theorem test_shl :
    gives (step (startV 0x812E#16 [(1, 0x81#8), (2, 0xEE#8)])) (fun s => s.getV 1 == 2#8 && s.getV 15 == 1#8 && s.getV 2 == 0xEE#8) = true := by decide
/-- A35 -/
theorem test_shl_of_the_flag : gives (step (startV 0x8F0E#16 [(15, 0x81#8)])) (fun s => s.getV 15 == 2#8) = true := by decide
/-- CF22 -/
theorem test_sne_reg : gives (step (startV 0x9120#16 [(1, 7#8), (2, 8#8)])) (fun s => s.pc == 0x204#16) = true := by decide
/-- CF23 -/
theorem test_sne_reg_same_register : gives (step (startV 0x9110#16 [(1, 7#8)])) (fun s => s.pc == 0x202#16) = true := by decide
/-- M1 -/
theorem test_ld_i : gives (step (start 0xA300#16)) (fun s => s.i == 0x300#16 && s.pc == 0x202#16) = true := by decide
/-- CF26 -/
theorem test_jp_v0 : gives (step (startV 0xB1FE#16 [(0, 2#8)])) (fun s => s.pc == 0x200#16) = true := by decide
/-- CF28 -/
theorem test_jp_v0_does_not_wrap :
    stops (step (startV 0xBFFF#16 [(0, 1#8)])) (.programCounterOutOfRange 0x1000) = true := by decide
/-- A36 -/
theorem test_rnd :
    gives (step ((start 0xC10F#16).supplyRandom 0xB7#8)) (fun s => s.getV 1 == 7#8 && s.pc == 0x202#16) = true := by decide
/-- A38 -/
theorem test_rnd_all_bits :
    gives (step ((start 0xC1FF#16).supplyRandom 0xB7#8)) (fun s => s.getV 1 == 0xB7#8) = true := by decide
/-- G4 -/
theorem test_drw_wraps :
    gives (step (startMem 0xD012#16 [(1, 31#8)] 0x300#16 0x300 [0x80#8, 0x80#8])) (fun s => Framebuffer.read s.fb 0 31 && Framebuffer.read s.fb 0 0 && !(Framebuffer.read s.fb 0 30) && !(Framebuffer.read s.fb 1 0) && s.getV 15 == 0#8) = true := by decide
/-- S8 -/
theorem test_drw_collides :
    gives (step ({ startMem 0xD011#16 [] 0x300#16 0x300 [0x80#8] with fb := Framebuffer.write Framebuffer.clear 0 0 true })) (fun s => !(Framebuffer.read s.fb 0 0) && s.getV 15 == 1#8 && s.pc == 0x202#16) = true := by decide
/-- K1 -/
theorem test_skp :
    gives (step ((startV 0xE29E#16 [(2, 10#8)]).supplyKeySample ⟨0x0400#16, false⟩)) (fun s => s.pc == 0x204#16) = true := by decide
/-- K9 -/
theorem test_skp_range_before_quit :
    stops (step ((startV 0xE29E#16 [(2, 0x10#8)]).supplyKeySample ⟨0#16, true⟩)) (.registerValueOutOfRange 0x10#8) = true := by decide
/-- K4 -/
theorem test_sknp :
    gives (step ((startV 0xE2A1#16 [(2, 10#8)]).supplyKeySample ⟨0x0400#16, false⟩)) (fun s => s.pc == 0x202#16) = true := by decide
/-- K8 -/
theorem test_sknp_quit :
    stops (step ((startV 0xE2A1#16 [(2, 10#8)]).supplyKeySample ⟨0x0400#16, true⟩)) (.quitRequested) = true := by decide
/-- K13 -/
theorem test_ld_vx_dt :
    gives (step ({ start 0xF107#16 with dt := 0x3C#8 })) (fun s => s.getV 1 == 0x3C#8 && s.dt == 0x3C#8) = true := by decide
/-- K11 -/
theorem test_ld_vx_k :
    gives (step ((startV 0xF30A#16 [(3, 0xEE#8)]).supplyKeyAnswer (.key 7))) (fun s => s.getV 3 == 7#8 && s.pc == 0x202#16) = true := by decide
/-- K12 -/
theorem test_ld_vx_k_quit :
    stops (step ((startV 0xF30A#16 [(3, 0xEE#8)]).supplyKeyAnswer .quitSentinel)) (.quitRequested) = true := by decide
/-- K14 -/
theorem test_ld_dt : gives (step (startV 0xF015#16 [(0, 0x3C#8)])) (fun s => s.dt == 0x3C#8 && s.st == 0#8) = true := by decide
/-- K15 -/
theorem test_ld_st : gives (step (startV 0xF018#16 [(0, 5#8)])) (fun s => s.st == 5#8 && s.dt == 0#8) = true := by decide
/-- M4 -/
theorem test_add_i :
    gives (step ({ startV 0xF21E#16 [(2, 1#8)] with i := 0xFFF#16 })) (fun s => s.i == 0x1000#16 && s.getV 15 == 0#8) = true := by decide
/-- M5 -/
theorem test_add_i_wraps :
    gives (step ({ startV 0xF21E#16 [(2, 2#8)] with i := 0xFFFF#16 })) (fun s => s.i == 1#16) = true := by decide
/-- M7 -/
theorem test_ld_f : gives (step (startV 0xF029#16 [(0, 0x0F#8)])) (fun s => s.i == 0x4B#16) = true := by decide
/-- M10 -/
theorem test_ld_f_does_not_mask :
    stops (step (startV 0xF029#16 [(0, 0x13#8)])) (.registerValueOutOfRange 0x13#8) = true := by decide
/-- M17 -/
theorem test_ld_b_at_the_top :
    gives (step (startMem 0xF133#16 [(1, 0x9D#8)] 0xFFD#16 0 [])) (fun s => Memory.read s.mem 0xFFD == 1#8 && Memory.read s.mem 0xFFE == 5#8 && Memory.read s.mem 0xFFF == 7#8) = true := by decide
/-- M18 -/
theorem test_ld_b_above_memory :
    stops (step (startMem 0xF133#16 [(1, 0x9D#8)] 0xFFE#16 0 [])) (.memoryAddressOutOfRange 0x1000) = true := by decide
/-- M19 -/
theorem test_ld_mem :
    gives (step (startMem 0xF155#16 [(0, 0xAA#8), (1, 0xBB#8), (2, 0xCC#8)] 0x300#16 0 [])) (fun s => Memory.read s.mem 0x300 == 0xAA#8 && Memory.read s.mem 0x301 == 0xBB#8 && Memory.read s.mem 0x302 == 0#8 && s.i == 0x300#16) = true := by decide
/-- M23 -/
theorem test_ld_mem_guarded :
    stops (step (startMem 0xF155#16 [(0, 1#8), (1, 2#8)] 0x1FF#16 0 [])) (.memoryWriteGuardViolation 0x1FF) = true := by decide
/-- M27 -/
theorem test_ld_vx_mem :
    gives (step (startMem 0xF265#16 [(3, 0x77#8)] 0x300#16 0x300 [1#8, 5#8, 7#8])) (fun s => s.getV 0 == 1#8 && s.getV 1 == 5#8 && s.getV 2 == 7#8 && s.getV 3 == 0x77#8 && s.i == 0x300#16) = true := by decide
/-- M28 -/
theorem test_ld_vx_mem_reads_the_font :
    gives (step (start 0xF465#16)) (fun s => s.getV 0 == 0xF0#8 && s.getV 1 == 0x90#8 && s.getV 4 == 0xF0#8 && s.getV 5 == 0#8) = true := by decide
/-- CF31 -/
theorem test_raw_data : stops (step (start 0x5121#16)) (.illegalInstruction 0x5121#16) = true := by decide
/-- E1 -/
theorem test_fetch_above_the_top :
    stops (step ({ start 0x0000#16 with pc := 0x1000#16 })) (.programCounterOutOfRange 0x1000) = true := by decide
/-- K17 -/
theorem test_tick_holds_at_zero :
    ({ start 0x0000#16 with st := 1#8 }).tick.st = 0#8 ∧ ({ start 0x0000#16 with st := 1#8 }).tick.tick.dt = 0#8 := by decide
/-- K19, at one boundary -/
theorem test_boundary_ticks :
    gives (step (({ start 0x0000#16 with dt := 3#8, inputs := Inputs.none }).scheduleTicks 5)) (fun s => s.dt == 0#8) = true := by decide
/-- R34 and the first step of L1 -/
theorem test_reset :
    State.reset.pc = 0x200#16 ∧ Memory.read State.reset.mem 0x00F = 0xF0#8 ∧ Memory.read State.reset.mem 0x200 = 0#8 ∧
    gives (step State.reset) (fun s => s.pc == 0x202#16) = true := by decide
/-- S9 -/
theorem test_load_image :
    gives (resetAndLoad true defaultFont [0x6A9D#16, 0xA300#16, 0xFA33#16, 0x120A#16]) (fun s => Memory.read s.mem 0x200 == 0x6A#8 &&
    Memory.read s.mem 0x207 == 0x0A#8 && Memory.read s.mem 0x208 == 0#8 && s.pc == 0x200#16 && s.readPixel 0 0 == false) = true := by decide
/-- D1, FLAG_ALIASED false: V[15] is ordinary -/
theorem test_set_flag_to_its_own_cell :
    ({ startV 0#16 [(15, 0x55#8)] with flag := .cell false }).setFlag true = { startV 0#16 [(15, 0x55#8)] with flag := .cell true } := by decide
/-- R3, D1 and the reset value of R14 -/
theorem test_load_with_the_flag_in_its_own_cell :
    gives (resetAndLoad false defaultFont []) (fun s => s.flag == .cell false && !s.flagAliased && s.pc == 0x200#16) = true := by decide
/-- E1 and E10 -/
theorem test_outcome_codes :
    outcomeCode (step { start 0x0000#16 with pc := 0x1000#16 }) = some 3 ∧
    outcomeCode (step ((startV 0xE09E#16 [(0, 10#8)]).supplyKeySample ⟨0#16, true⟩)) = some 1 := by decide

/-! ## Witnesses: for every obligation with hypotheses, states and operands that meet them together, each clause at a boundary -/

theorem witness_DecodeEncodeRoundTrip :
    (Instr.sys 0x0E1#12).wf = true ∧ (Instr.drw 15 15 15).wf = true ∧ (Instr.dw 0x5001#16).wf = true := by decide

theorem witness_OnlyClsAndRetOverlap :
    ∃ r ∈ instructionRows, ∃ q ∈ instructionRows, rowMatches r 0x00E0#16 = true ∧ rowMatches q 0x00E0#16 = true ∧
      r.mnemonic ≠ q.mnemonic := 
  ⟨instructionRows[0], List.getElem_mem _, instructionRows[2], List.getElem_mem _, by decide, by decide, by decide⟩

theorem witness_RawDataIsTheIllegalWords :
    isRawData 0x5001#16 = true ∧ decode 0xFFFF#16 = .dw 0xFFFF#16 ∧ isRawData 0xF066#16 = true ∧ decode 0x8008#16 = .dw 0x8008#16 := by decide

theorem witness_FetchAndImageAreBigEndian_fetch :
    ({ start 0#16 with pc := 0xFFE#16 }).pc.toNat ≤ 0xFFE ∧ ({ start 0#16 with pc := 0#16 }).pc.toNat ≤ 0xFFE := by decide

theorem witness_FetchAndImageAreBigEndian_image :
    ∃ s, resetAndLoad true defaultFont [0x1200#16] = .next s ∧ 0 < [0x1200#16].length := ⟨_, eq_nextOf (by decide), by decide⟩

theorem witness_StepRunsTheDecodedInstruction :
    ∃ s : State, s.pc.toNat = 0xFFE ∧ s.pc.toNat ≤ 0xFFE ∧
      decodeBytes [Memory.read s.mem s.pc.toNat, Memory.read s.mem (s.pc.toNat + 1)] = .ok (.ldImm 0 1#8, []) := 
  ⟨{ State.reset with pc := 0xFFE#16, mem := [(0xFFE, 0x60#8), (0xFFF, 0x01#8)] }, by decide, by decide, by decide⟩

theorem witness_FetchAboveTopFaults :
    0xFFE < ({ start 0#16 with pc := 0xFFF#16 }).pc.toNat ∧ 0xFFE < ({ start 0#16 with pc := 0x1002#16 }).pc.toNat := by decide

theorem witness_ResetAndLoadLeavesTheResetState :
    (List.replicate 1792 0xFFFF#16).length ≤ 1792 ∧ ([] : List Word).length ≤ 1792 := by simp

theorem witness_OverlongImageIsRefused :
    1792 < (List.replicate 1793 0xFFFF#16).length := by simp

theorem witness_ResetIsAnEmptyLoad :
    defaultFont.toList = fontTable := by decide

theorem witness_LoadedStateMeetsTheInvariant :
    ∃ s, resetAndLoad true defaultFont [0x1200#16] = .next s := ⟨_, eq_nextOf (by decide)⟩

theorem witness_StepKeepsTheInvariant :
    (startStack 0x2200#16 [0x202#16, 0x1000#16]).Inv ∧ ∃ t, step (startStack 0x2200#16 [0x202#16, 0x1000#16]) = .next t := ⟨by decide, _, eq_nextOf (by decide)⟩

theorem witness_StepKeepsTheInvariant_at_the_top :
    ∃ s : State, s.pc = 0xFFE#16 ∧ s.Inv ∧ ∃ t, step s = .next t ∧ t.pc = 0x1002#16 := 
  ⟨{ State.reset with pc := 0xFFE#16, mem := [(0xFFE, 0x30#8)] }, by decide, by decide, _, eq_nextOf (by decide), by decide⟩

theorem witness_GuardedRegionIsNeverWritten :
    (∃ t, step (startMem 0xF033#16 [] 0x200#16 0 []) = .next t) ∧ 0x1FF < 0x200 := ⟨⟨_, eq_nextOf (by decide)⟩, by decide⟩

theorem witness_OutcomeIsTheErrorTables :
    errorOf (.jp 0x1FF#12) (start 0#16) = some (.programCounterOutOfRange 0x1FF) ∧ errorOf (.jp 0x200#12) (start 0#16) = none := by decide

theorem witness_QuitOnlyFromKeyboardInstructions_exec :
    exec (.skp 0) ((start 0#16).supplyKeySample ⟨0#16, true⟩) = .fault .quitRequested ∧
    exec (.ldVxK 0) ((start 0#16).supplyKeyAnswer .quitSentinel) = .fault .quitRequested := ⟨eq_of_stops (by decide), eq_of_stops (by decide)⟩

theorem witness_QuitOnlyFromKeyboardInstructions_step :
    step ((start 0xE0A1#16).supplyKeySample ⟨0#16, true⟩) = .fault .quitRequested := eq_of_stops (by decide)

theorem witness_QuitOnlyFromKeyboardInstructions_others :
    ∀ x, Instr.rnd 0 0#8 ≠ .skp x ∧ Instr.rnd 0 0#8 ≠ .sknp x ∧ Instr.rnd 0 0#8 ≠ .ldVxK x := by decide

theorem witness_InputsReachOnlyDrawingInstructions :
    ∀ x kk, Instr.cls ≠ .rnd x kk ∧ Instr.cls ≠ .skp x ∧ Instr.cls ≠ .sknp x ∧ Instr.cls ≠ .ldVxK x := fun _ _ => by simp

theorem witness_FramebufferIsDrawAndClearOnly :
    (∃ t, exec (.ldI 0xFFF#12) (start 0#16) = .next t) ∧ Instr.ldI 0xFFF#12 ≠ .cls ∧
      (∀ x y n, Instr.ldI 0xFFF#12 ≠ .drw x y n) := 
  ⟨⟨_, eq_nextOf (by decide)⟩, by decide, fun _ _ _ => by simp⟩

theorem witness_StackIsCallAndReturnOnly :
    Instr.cls ≠ .ret ∧ ∀ nnn, Instr.cls ≠ .call nnn := ⟨by decide, fun _ => by simp⟩

theorem witness_IndexAndTimersWrittenByTheirLoads :
    (∃ t, exec (.ldMemVx 15) (startMem 0#16 [] 0xFF0#16 0 []) = .next t) ∧
      (∀ nnn x, Instr.ldMemVx 15 ≠ .ldI nnn ∧ Instr.ldMemVx 15 ≠ .addI x ∧ Instr.ldMemVx 15 ≠ .ldF x) ∧
      (∀ x, Instr.ldMemVx 15 ≠ .ldDTVx x) ∧ (∀ x, Instr.ldMemVx 15 ≠ .ldSTVx x) := 
  ⟨⟨_, eq_nextOf (by decide)⟩, fun _ _ => by simp, fun _ => by simp, fun _ => by simp⟩

/-- A machine with FLAG_ALIASED false. -/
def inCell : State := { start 0#16 with flag := .cell false }

theorem witness_RegistersWrittenAsTabled :
    (∃ t, exec (.ldVxMem 14) (startMem 0#16 [] 0xFF1#16 0 []) = .next t) ∧ writesV true (.ldVxMem 14) 15 = false ∧
      writesFlag (.ldVxMem 14) = false ∧ (∃ t, exec (.addReg 1 2) inCell = .next t) ∧ writesV inCell.flagAliased (.addReg 1 2) 15 = false := 
  ⟨⟨_, eq_nextOf (by decide)⟩, by decide, by decide, ⟨_, eq_nextOf (by decide)⟩, by decide⟩

theorem witness_MemoryWrittenAsTabled :
    ∃ s t : State, exec (.ldB 0) s = .next t ∧ 0x1FF < s.i.toNat ∧ s.i.toNat + storeLength (.ldB 0) ≤ 0x203 := 
  ⟨startMem 0#16 [] 0x200#16 0 [], _, eq_nextOf (by decide), by decide, by decide⟩

theorem witness_ProgramCounterMovesAsTabled :
    (∃ t, exec (.jp 0xFFE#12) (start 0#16) = .next t) ∧ isTransfer (.jp 0xFFE#12) = true ∧
      (∃ t, exec (.seReg 0 0) (start 0#16) = .next t) ∧ isSkip (.seReg 0 0) = true ∧
      (∃ t, exec .cls (start 0#16) = .next t) ∧ isTransfer .cls = false ∧ isSkip .cls = false := 
  ⟨⟨_, eq_nextOf (by decide)⟩, by decide, ⟨_, eq_nextOf (by decide)⟩, by decide, ⟨_, eq_nextOf (by decide)⟩, by decide, by decide⟩

theorem witness_JumpIsChecked :
    (0x1FF#12).toNat < 0x200 ∧ (0x200 ≤ (0xFFF#12).toNat ∧ (0xFFF#12).toNat % 2 = 1) ∧
      (0x200 ≤ (0x200#12).toNat ∧ (0x200#12).toNat % 2 = 0) ∧ (0x200 ≤ (0xFFE#12).toNat ∧ (0xFFE#12).toNat % 2 = 0) := by decide

theorem witness_JumpOffsetIsChecked :
    0x1FF = (0x1FF#12).toNat + ((startV 0#16 [(0, 0#8)]).getV 0).toNat ∧
      0x1000 = (0xFFF#12).toNat + ((startV 0#16 [(0, 1#8)]).getV 0).toNat ∧
      (0xFFF = (0xF00#12).toNat + ((startV 0#16 [(0, 0xFF#8)]).getV 0).toNat ∧ 0xFFF % 2 = 1) ∧
      (0x201 = (0x200#12).toNat + ((startV 0#16 [(0, 1#8)]).getV 0).toNat ∧ 0x201 % 2 = 1) ∧
      (0x200 = (0x101#12).toNat + ((startV 0#16 [(0, 0xFF#8)]).getV 0).toNat ∧ 0x200 % 2 = 0) ∧
      (0xFFE = (0xFFE#12).toNat + ((startV 0#16 [(0, 0#8)]).getV 0).toNat ∧ 0xFFE % 2 = 0) := by decide

theorem witness_CallPushesTheReturnAddress :
    (0x1FF#12).toNat < 0x200 ∧ (0x200 ≤ (0x201#12).toNat ∧ (0x201#12).toNat % 2 = 1) ∧
      (0x200 ≤ (0x200#12).toNat ∧ (0x200#12).toNat % 2 = 0 ∧ (startStack 0#16 (List.replicate 16 0x202#16)).sp.val = 16) ∧
      (0x200 ≤ (0xFFE#12).toNat ∧ (0xFFE#12).toNat % 2 = 0 ∧ (startStack 0#16 (List.replicate 15 0x202#16)).sp.val < 16) := by decide

theorem witness_ReturnPopsThePc_empty :
    (start 0#16).sp.val = 0 := by decide

theorem witness_ReturnPopsThePc_full_stack :
    (startStack 0#16 (List.replicate 16 0x1000#16)).sp.val = (15 : Fin 16).val + 1 ∧
      0x1000 = ((startStack 0#16 (List.replicate 16 0x1000#16)).stack.get 15).toNat := by decide

theorem witness_ReturnPopsThePc_target_0x1FF :
    (startStack 0#16 [0x1FF#16]).sp.val = (0 : Fin 16).val + 1 ∧ ((startStack 0#16 [0x1FF#16]).stack.get 0).toNat = 0x1FF := by decide

theorem witness_ReturnPopsThePc_target_0x1000 :
    (startStack 0#16 [0x1000#16]).sp.val = (0 : Fin 16).val + 1 ∧ ((startStack 0#16 [0x1000#16]).stack.get 0).toNat = 0x1000 := by decide

theorem witness_ReturnPopsThePc_target_0x201 :
    (startStack 0#16 [0x201#16]).sp.val = (0 : Fin 16).val + 1 ∧ ((startStack 0#16 [0x201#16]).stack.get 0).toNat = 0x201 := by decide

theorem witness_ReturnPopsThePc_target_0xFFF :
    (startStack 0#16 [0xFFF#16]).sp.val = (0 : Fin 16).val + 1 ∧ ((startStack 0#16 [0xFFF#16]).stack.get 0).toNat = 0xFFF := by decide

theorem witness_ReturnPopsThePc_target_0x200 :
    (startStack 0#16 [0x200#16]).sp.val = (0 : Fin 16).val + 1 ∧ ((startStack 0#16 [0x200#16]).stack.get 0).toNat = 0x200 := by decide

theorem witness_ReturnPopsThePc_target_0xFFE :
    (startStack 0#16 [0xFFE#16]).sp.val = (0 : Fin 16).val + 1 ∧ ((startStack 0#16 [0xFFE#16]).stack.get 0).toNat = 0xFFE := by decide

theorem witness_ReturnComesBackAfterTheCall_0x200 :
    ({ start 0#16 with pc := 0x200#16 } : State).pc.toNat % 2 = 0 ∧ 0x200 ≤ ({ start 0#16 with pc := 0x200#16 } : State).pc.toNat ∧
      ({ start 0#16 with pc := 0x200#16 } : State).pc.toNat < 0xFFE ∧ ∃ t, exec (.call 0x300#12) ({ start 0#16 with pc := 0x200#16 } : State) = .next t := 
  ⟨by decide, by decide, by decide, _, eq_nextOf (by decide)⟩

theorem witness_ReturnComesBackAfterTheCall_0xFFC :
    ({ start 0#16 with pc := 0xFFC#16 } : State).pc.toNat % 2 = 0 ∧ 0x200 ≤ ({ start 0#16 with pc := 0xFFC#16 } : State).pc.toNat ∧
      ({ start 0#16 with pc := 0xFFC#16 } : State).pc.toNat < 0xFFE ∧ ∃ t, exec (.call 0x300#12) ({ start 0#16 with pc := 0xFFC#16 } : State) = .next t := 
  ⟨by decide, by decide, by decide, _, eq_nextOf (by decide)⟩

theorem witness_RawDataAlwaysStops :
    (∀ r ∈ instructionRows, rowMatches r 0x5001#16 = false) ∧ exec (.dw 0x0000#16) (start 0#16) = .fault (.illegalInstruction 0x0000#16) := ⟨by decide, rfl⟩

theorem witness_AddSetsCarry :
    ((14 : Reg) ≠ 15 ∨ (start 0#16).flagAliased = false) ∧ ((15 : Reg) ≠ 15 ∨ inCell.flagAliased = false) := by decide

theorem witness_SubtractionsSetNoBorrow :
    0 = ((start 0#16).getV 14).toNat ∧ 255 = ((startV 0#16 [(2, 0xFF#8)]).getV 2).toNat ∧ (14 : Reg) ≠ 15 ∧
      0 = (inCell.getV 15).toNat ∧ 0 = (inCell.getV 14).toNat ∧ inCell.flagAliased = false := by decide

theorem witness_ShiftsSetTheBitShiftedOut :
    255 = ((startV 0#16 [(14, 0xFF#8)]).getV 14).toNat ∧ (14 : Reg) ≠ 15 ∧
      0 = (inCell.getV 15).toNat ∧ inCell.flagAliased = false := by decide

theorem witness_RandomIsMasked :
    ((start 0#16).supplyRandom 0xB7#8).inputs.randomBytes = 0xB7#8 :: [] ∧ (start 0#16).inputs.randomBytes = [] := by decide

theorem witness_FontPointerIsChecked :
    15 < ((startV 0#16 [(0, 0x10#8)]).getV 0).toNat ∧ ((startV 0#16 [(0, 0x0F#8)]).getV 0).toNat ≤ 15 := by decide

theorem witness_StoreDecimalDigits_errors :
    (startMem 0#16 [] 0x1FF#16 0 []).i.toNat < 0x200 ∧
      (0x200 ≤ (startMem 0#16 [] 0xFFE#16 0 []).i.toNat ∧ 0xFFF < (startMem 0#16 [] 0xFFE#16 0 []).i.toNat + 2) := by decide

theorem witness_StoreDecimalDigits_at_0x200 :
    0x200 ≤ (startMem 0#16 [] 0x200#16 0 []).i.toNat ∧ (startMem 0#16 [] 0x200#16 0 []).i.toNat + 2 ≤ 0xFFF ∧
      Memory.wf (startMem 0#16 [] 0x200#16 0 []).mem := by decide

theorem witness_StoreDecimalDigits_at_0xFFD :
    0x200 ≤ (startMem 0#16 [] 0xFFD#16 0 []).i.toNat ∧ (startMem 0#16 [] 0xFFD#16 0 []).i.toNat + 2 ≤ 0xFFF ∧
      Memory.wf (startMem 0#16 [] 0xFFD#16 0 []).mem := by decide

theorem witness_DecimalDigitsMakeTheValue :
    Memory.wf (startMem 0xF133#16 [(1, 0xFF#8)] 0xFFD#16 0 []).mem ∧
      ∃ t, exec (.ldB 1) (startMem 0xF133#16 [(1, 0xFF#8)] 0xFFD#16 0 []) = .next t := ⟨by decide, _, eq_nextOf (by decide)⟩

theorem witness_StoreRegisters :
    (startMem 0#16 [] 0x1FF#16 0 []).i.toNat < 0x200 ∧ (0x200 ≤ (startMem 0#16 [] 0xFF1#16 0 []).i.toNat ∧ 0xFFF < (startMem 0#16 [] 0xFF1#16 0 []).i.toNat + (15 : Reg).val) ∧
      (0x200 ≤ (startMem 0#16 [] 0xFF0#16 0 []).i.toNat ∧ (startMem 0#16 [] 0xFF0#16 0 []).i.toNat + (15 : Reg).val ≤ 0xFFF ∧ Memory.wf (startMem 0#16 [] 0xFF0#16 0 []).mem) ∧
      (0x200 ≤ (startMem 0#16 [] 0x200#16 0 []).i.toNat ∧ (startMem 0#16 [] 0x200#16 0 []).i.toNat + (0 : Reg).val ≤ 0xFFF ∧ Memory.wf (startMem 0#16 [] 0x200#16 0 []).mem) := by decide

theorem witness_LoadRegisters :
    0xFFF < (startMem 0#16 [] 0xFF1#16 0 []).i.toNat + (15 : Reg).val ∧ (startMem 0#16 [] 0xFF0#16 0 []).i.toNat + (15 : Reg).val ≤ 0xFFF ∧ (startMem 0#16 [] 0x000#16 0 []).i.toNat + (0 : Reg).val ≤ 0xFFF := by decide

theorem witness_StoreIsSeenByTheNextFetch :
    Memory.wf (startMem 0#16 [] 0x202#16 0 []).mem ∧ 1 ≤ (1 : Reg).val ∧ (startMem 0#16 [] 0x202#16 0 []).i = (startMem 0#16 [] 0x202#16 0 []).pc + 2#16 ∧ ∃ t, exec (.ldMemVx 1) (startMem 0#16 [] 0x202#16 0 []) = .next t := 
  ⟨by decide, by decide, by decide, _, eq_nextOf (by decide)⟩

theorem witness_DrawXorsTheSprite_range :
    (0 < (2 : Fin 16).val ∧ 0xFFF < (startMem 0#16 [] 0xFFF#16 0 []).i.toNat + (2 : Fin 16).val - 1) ∧
      (0 : Fin 16).val = 0 ∧ (startMem 0#16 [] 0xFFF#16 0 []).i.toNat + (1 : Fin 16).val - 1 ≤ 0xFFF := by decide

/-- The state of vector S8: one pixel lit, a sprite that meets it. -/
def lit : State := { startMem 0xD011#16 [] 0x300#16 0x300 [0x80#8] with fb := Framebuffer.write Framebuffer.clear 0 0 true }

theorem witness_DrawXorsTheSprite_covered :
    (0 < (1 : Fin 16).val ∧ 7 < 8) ∧ (∀ r < (1 : Fin 16).val, ∀ c < 8, ¬ ((0 : Fin 64) = lit.screenX 0 c ∧ (1 : Fin 32) = lit.screenY 1 r)) := by decide

theorem witness_DrawXorsTheSprite_collision :
    lit.Collides 0 1 1 ∧ ¬ (start 0#16).Collides 0 1 0 := ⟨⟨0, by decide, 0, by decide, by decide, by decide⟩, fun ⟨_, h, _⟩ => absurd h (Nat.not_lt_zero _)⟩

theorem witness_DrawTwiceRestores :
    ∃ t u, exec (.drw 0 14 1) lit = .next t ∧ t.spriteX 0 = lit.spriteX 0 ∧ t.spriteY 14 = lit.spriteY 14 ∧
      exec (.drw 0 14 1) t = .next u := 
  ⟨_, _, eq_nextOf (by decide), by decide, by decide, eq_nextOf (by decide)⟩

theorem witness_DrawTwiceRestores_from_the_flag_register :
    ∃ t u, exec (.drw 15 14 1) ({ lit with flag := .cell false } : State) = .next t ∧ t.spriteX 15 = ({ lit with flag := .cell false } : State).spriteX 15 ∧ t.spriteY 14 = ({ lit with flag := .cell false } : State).spriteY 14 ∧
      exec (.drw 15 14 1) t = .next u := 
  ⟨_, _, eq_nextOf (by decide), by decide, by decide, eq_nextOf (by decide)⟩

theorem witness_SecondDrawAlwaysCollides_a_set_bit :
    ∃ t u, exec (.drw 0 1 1) lit = .next t ∧ t.spriteX 0 = lit.spriteX 0 ∧ t.spriteY 1 = lit.spriteY 1 ∧
      exec (.drw 0 1 1) t = .next u ∧ (∃ r < (1 : Fin 16).val, ∃ c < 8, lit.spriteBit r c = true) := 
  ⟨_, _, eq_nextOf (by decide), by decide, by decide, eq_nextOf (by decide), 0, by decide, 0, by decide, by decide⟩

theorem witness_SecondDrawAlwaysCollides_no_set_bit :
    ∃ t u, exec (.drw 0 1 0) (start 0#16) = .next t ∧ t.spriteX 0 = (start 0#16).spriteX 0 ∧ t.spriteY 1 = (start 0#16).spriteY 1 ∧
      exec (.drw 0 1 0) t = .next u ∧ (∀ r < (0 : Fin 16).val, ∀ c < 8, (start 0#16).spriteBit r c = false) := 
  ⟨_, _, eq_nextOf (by decide), by decide, by decide, eq_nextOf (by decide), by decide⟩

theorem witness_BlankDrawsDoNotCollide :
    (∃ t, exec (.drw 0 1 1) (start 0#16) = .next t) ∧ (∀ px py, Framebuffer.read (start 0#16).fb px py = false) ∧
      (∃ t, exec (.drw 0 1 15) (startMem 0#16 [] 0x300#16 0 []) = .next t) ∧ (∀ r < (15 : Fin 16).val, ∀ c < 8, (startMem 0#16 [] 0x300#16 0 []).spriteBit r c = false) := 
  ⟨⟨_, eq_nextOf (by decide)⟩, fun px py => by simp [Framebuffer.read, start, State.withFetchWord, State.placeWord, State.reset, Vector.get_eq_getElem],
    ⟨_, eq_nextOf (by decide)⟩, by decide⟩

theorem witness_SkipOnKeys_0x10_true :
    ((startV 0#16 [(2, 0x10#8)]).supplyKeySample ⟨0x8000#16, true⟩).inputs.keySample =
      (⟨0x8000#16, true⟩, (start 0#16).inputs) ∧ (((startV 0#16 [(2, 0x10#8)]).supplyKeySample ⟨0x8000#16, true⟩).getV 2).toNat = 0x10 := by decide

theorem witness_SkipOnKeys_0x0F_true :
    ((startV 0#16 [(2, 0x0F#8)]).supplyKeySample ⟨0x8000#16, true⟩).inputs.keySample =
      (⟨0x8000#16, true⟩, (start 0#16).inputs) ∧ (((startV 0#16 [(2, 0x0F#8)]).supplyKeySample ⟨0x8000#16, true⟩).getV 2).toNat = 0x0F := by decide

theorem witness_SkipOnKeys_0x0F_false :
    ((startV 0#16 [(2, 0x0F#8)]).supplyKeySample ⟨0x8000#16, false⟩).inputs.keySample =
      (⟨0x8000#16, false⟩, (start 0#16).inputs) ∧ (((startV 0#16 [(2, 0x0F#8)]).supplyKeySample ⟨0x8000#16, false⟩).getV 2).toNat = 0x0F := by decide

theorem witness_KeyWaitStoresTheDigit :
    ((start 0#16).supplyKeyAnswer .quitSentinel).inputs.keyAnswer = (.quitSentinel, (start 0#16).inputs) ∧
      ((start 0#16).supplyKeyAnswer (.key 15)).inputs.keyAnswer = (.key 15, (start 0#16).inputs) := by decide

end Sys2Proof.Tests
end

/-! PROOF of `FirstMatchDecides` (R64). The catch-all row makes the scan of the table succeed on every word, and a successful
scan splits the table at the first match. The operands agree row by row: what the mask of a kind leaves fits the operand's
type, so no field cuts off a bit of `(w & mask) >> shift`. -/

namespace Sys2Proof.Machine

/-! ## The operand fields are the extracted values -/

/-- What a mask leaves, shifted down, is at most the mask shifted down. -/
theorem extract_toNat_le {k : OperandKind} {mask : Word} {shift : Nat} (hk : k.maskShift = some (mask, shift)) (w : Word) :
    (extract k w).toNat ≤ mask.toNat / 2 ^ shift := by
  simp only [extract, hk, shiftRight_mask, BitVec.toNat_and]
  exact Nat.div_le_div_right Nat.and_le_right

theorem fieldX_val (w : Word) : (fieldX w).val = (extract .registerX w).toNat :=
  Nat.mod_eq_of_lt (Nat.lt_succ_of_le (extract_toNat_le (k := .registerX) rfl w))

theorem fieldY_val (w : Word) : (fieldY w).val = (extract .registerY w).toNat :=
  Nat.mod_eq_of_lt (Nat.lt_succ_of_le (extract_toNat_le (k := .registerY) rfl w))

theorem fieldN_val (w : Word) : (fieldN w).val = (extract .nibble w).toNat :=
  Nat.mod_eq_of_lt (Nat.lt_succ_of_le (extract_toNat_le (k := .nibble) rfl w))

theorem fieldKK_toNat (w : Word) : (fieldKK w).toNat = (extract .byte w).toNat :=
  Nat.mod_eq_of_lt (Nat.lt_succ_of_le (extract_toNat_le (k := .byte) rfl w))

theorem fieldNNN_toNat (w : Word) : (fieldNNN w).toNat = (extract .address w).toNat :=
  Nat.mod_eq_of_lt (Nat.lt_succ_of_le (extract_toNat_le (k := .address) rfl w))

/-- Every row of the table gives its instruction the operands that its kinds extract (R62, R66). -/
theorem operandValues_make {r : OpcodeRow} (hr : r ∈ opcodeTable) (w : Word) :
    operandValues (r.make w) = (r.kinds.filterMap OperandKind.maskShift).map fun p => ((w &&& p.1) >>> p.2).toNat := by
  simp only [opcodeTable, instructionRows, opcodeRows1, opcodeRows2, opcodeRows3, opcodeRows4, List.cons_append,
    List.nil_append] at hr
  fin_cases hr <;> simp only [operandValues, fieldX_val, fieldY_val, fieldN_val, fieldKK_toNat, fieldNNN_toNat] <;> rfl

/-! ## The scan of the table -/

/-- The scan finds a row for every word, since the catch-all matches each (R68). -/
theorem find?_opcodeTable_isSome (w : Word) : (opcodeTable.find? (rowMatches · w)).isSome = true := by
  obtain ⟨r, hr, hmatch⟩ := Laws.EncodesInRow.dw w
  exact List.find?_isSome.2 ⟨r, List.mem_of_getElem? hr, hmatch⟩

theorem decode_of_find? {w : Word} {r : OpcodeRow} (h : opcodeTable.find? (rowMatches · w) = some r) :
    decode w = r.make w := by
  rw [decode, h]

/-- Settles O3: the scan finds a row because the catch-all matches, and the row it finds is the first match. -/
theorem firstMatchDecides : Obligations.FirstMatchDecides := by
  intro w
  obtain ⟨r, hfind⟩ := Option.isSome_iff_exists.1 (find?_opcodeTable_isSome w)
  obtain ⟨hmatch, before, after, htable, hbefore⟩ := List.find?_eq_some_iff_append.1 hfind
  refine ⟨before, r, after, htable, eq_of_beq hmatch, fun q hq => ?_, decode_of_find? hfind, ?_⟩
  · simpa [rowMatches] using hbefore q hq
  · rw [decode_of_find? hfind]
    exact operandValues_make (List.mem_of_find?_eq_some hfind) w

end Sys2Proof.Machine

/-! PROOF of `SkipOnImmediate` (R88, R89) and `SkipOnRegisters` (R90, R91). All four are the one operation `skipWhen` on a
comparison of bytes; as an equation of states it says at once that nothing but `pc` changes. -/

namespace Sys2Proof.Machine

/-- A skip on a test that decides `p` adds 4 or 2 to `pc` as `p` holds or not, and changes nothing else (R20, R94). -/
theorem State.skipWhen_eq (s : State) {c : Bool} {p : Prop} [Decidable p] (hc : c = true ↔ p) :
    s.skipWhen c = { s with pc := if p then s.pc + 4#16 else s.pc + 2#16 } := by
  rw [State.skipWhen, apply_ite (s.pc + ·)]
  simp only [hc]

theorem exec_seImm (x : Reg) (kk : Byte) (s : State) : exec (.seImm x kk) s = .next (s.skipWhen (s.getV x == kk)) := rfl
theorem exec_sneImm (x : Reg) (kk : Byte) (s : State) : exec (.sneImm x kk) s = .next (s.skipWhen (s.getV x != kk)) := rfl
theorem exec_seReg (x y : Reg) (s : State) : exec (.seReg x y) s = .next (s.skipWhen (s.getV x == s.getV y)) := rfl
theorem exec_sneReg (x y : Reg) (s : State) : exec (.sneReg x y) s = .next (s.skipWhen (s.getV x != s.getV y)) := rfl

/-- Settles O28: both are `skipWhen`, on `==` and `!=` with the immediate. -/
theorem skipOnImmediate : Obligations.SkipOnImmediate := by
  intro x kk s
  constructor
  · rw [exec_seImm, s.skipWhen_eq beq_iff_eq]
  · rw [exec_sneImm, s.skipWhen_eq bne_iff_ne]

/-- Settles O29: both are `skipWhen`, on `==` and `!=` of the two registers. -/
theorem skipOnRegisters : Obligations.SkipOnRegisters := by
  intro x y s
  constructor
  · rw [exec_seReg, s.skipWhen_eq beq_iff_eq]
  · rw [exec_sneReg, s.skipWhen_eq bne_iff_ne]

end Sys2Proof.Machine

/-! PROOF of `RawDataAlwaysStops` (R93). Where no instruction row matches, the scan ends at the catch-all, which carries the
whole word. For the converse, every operation that can fail is given the faults it can answer (R151); `IllegalInstruction` is
among none of them, so only raw data is left. -/

namespace Sys2Proof.Machine

/-! ## Raw data decodes to its own word -/

/-- The raw-data operand is the word itself: its mask is all ones and its shift 0 (R62). -/
theorem extract_rawData (w : Word) : extract .rawData w = w := by
  apply BitVec.eq_of_toNat_eq
  simp only [extract, OperandKind.maskShift, shiftRight_mask, and_FFFF, Nat.pow_zero, Nat.div_one]

theorem rowMatches_rawDataRow (w : Word) : rowMatches rawDataRow w = true :=
  (rowMatches_iff _ _).2 (by simp [rawDataRow])

/-- A word that no instruction row matches is raw data and carries itself (R68, R93). -/
theorem decode_of_no_row_matches {w : Word} (h : ∀ r ∈ instructionRows, rowMatches r w = false) : decode w = .dw w := by
  have hnone : instructionRows.find? (rowMatches · w) = none := List.find?_eq_none.2 fun r hr => by simp [h r hr]
  have hfind : opcodeTable.find? (rowMatches · w) = some rawDataRow := by
    rw [opcodeTable, List.find?_append, hnone, Option.none_or]
    exact List.find?_cons_of_pos (rowMatches_rawDataRow w)
  rw [decode_of_find? hfind]
  exact congrArg Instr.dw (extract_rawData w)

/-! ## The faults of the checked operations (R151) -/

theorem checkTarget_fault {t : Nat} {f : Fault} (h : checkTarget t = .error f) :
    f = .programCounterOutOfRange t ∨ f = .programCounterMisaligned t := by
  rcases checkTarget_cases t with ⟨e, -⟩ | ⟨e, -⟩ | ⟨e, -⟩ <;> rw [e] at h <;> cases h
  · exact .inl rfl
  · exact .inr rfl

theorem State.push_fault {s : State} {w : Word} {f : Fault} (h : s.push w = .error f) : f = .callStackOverflow := by
  by_cases hsp : s.sp.val < 16
  · rw [State.push_ok s w hsp] at h; cases h
  · rw [State.push_full s w hsp] at h; cases h; rfl

theorem State.pop_fault {s : State} {f : Fault} (h : s.pop = .error f) : f = .callStackUnderflow := by
  by_cases hsp : 0 < s.sp.val
  · rw [State.pop_ok s hsp] at h; cases h
  · rw [State.pop_empty s hsp] at h; cases h; rfl

theorem State.digit_fault {s : State} {x : Reg} {f : Fault} (h : s.digit x = .error f) :
    f = .registerValueOutOfRange (s.getV x) := by
  by_cases hx : (s.getV x).toNat < 16
  · rw [State.digit_ok s x hx] at h; cases h
  · rw [State.digit_error s x hx] at h; cases h; rfl

theorem State.load_fault {s : State} {a n : Nat} {f : Fault} (h : s.load a n = .error f) :
    f = .memoryAddressOutOfRange (a + n - 1) := by
  rw [State.load_eq] at h
  split at h
  · cases h; rfl
  · cases h

theorem State.store_fault {s : State} {a : Nat} {bs : List Byte} {f : Fault} (h : s.store a bs = .error f) :
    f = .memoryWriteGuardViolation a ∨ f = .memoryAddressOutOfRange (a + bs.length - 1) := by
  rw [State.store_eq] at h
  split at h
  · cases h; exact .inl rfl
  · split at h
    · cases h; exact .inr rfl
    · cases h

/-! ## The faults of the instructions that have one -/

theorem State.jumpTo_fault {s : State} {t : Nat} {f : Fault} (h : s.jumpTo t = .fault f) :
    f = .programCounterOutOfRange t ∨ f = .programCounterMisaligned t := by
  rcases s.jumpTo_cases t with ⟨e, -⟩ | ⟨e, -⟩ | ⟨e, -⟩ <;> rw [e] at h <;> cases h
  · exact .inl rfl
  · exact .inr rfl

theorem execRet_fault {s : State} {f : Fault} (h : execRet s = .fault f) :
    f = .callStackUnderflow ∨ ∃ t, f = .programCounterOutOfRange t ∨ f = .programCounterMisaligned t := by
  unfold execRet at h
  split at h
  · exact .inr ⟨_, State.jumpTo_fault h⟩
  · next e => cases h; exact .inl (State.pop_fault e)

theorem execCall_fault {nnn : Addr} {s : State} {f : Fault} (h : execCall nnn s = .fault f) :
    f = .programCounterOutOfRange nnn.toNat ∨ f = .programCounterMisaligned nnn.toNat ∨ f = .callStackOverflow := by
  unfold execCall at h
  split at h
  · next e => cases h; exact (checkTarget_fault e).imp_right .inl
  · split at h
    · next e => cases h; exact .inr (.inr (State.push_fault e))
    · cases h

theorem execDrw_fault {x y : Reg} {n : Fin 16} {s : State} {f : Fault} (h : execDrw x y n s = .fault f) :
    f = .memoryAddressOutOfRange (s.i.toNat + n.val - 1) := by
  unfold execDrw at h
  split at h
  · next e => cases h; exact State.load_fault e
  · cases h

theorem State.skipOnKey_fault {s : State} {x : Reg} {wanted : Bool} {f : Fault} (h : s.skipOnKey x wanted = .fault f) :
    f = .registerValueOutOfRange (s.getV x) ∨ f = .quitRequested := by
  unfold State.skipOnKey at h
  split at h
  · next e => cases h; exact .inl (State.digit_fault e)
  · split at h
    · cases h; exact .inr rfl
    · cases h

theorem execLdVxK_fault {x : Reg} {s : State} {f : Fault} (h : execLdVxK x s = .fault f) : f = .quitRequested := by
  unfold execLdVxK at h
  split at h
  · cases h; rfl
  · cases h

theorem execLdF_fault {x : Reg} {s : State} {f : Fault} (h : execLdF x s = .fault f) :
    f = .registerValueOutOfRange (s.getV x) := by
  unfold execLdF at h
  split at h
  · cases h
  · next e => cases h; exact State.digit_fault e

theorem State.storeAtBase_fault {s : State} {bs : List Byte} {f : Fault} (h : s.storeAtBase bs = .fault f) :
    f = .memoryWriteGuardViolation s.i.toNat ∨ f = .memoryAddressOutOfRange (s.i.toNat + bs.length - 1) := by
  unfold State.storeAtBase at h
  split at h
  · cases h
  · next e => cases h; exact State.store_fault e

theorem execLdVxMem_fault {x : Reg} {s : State} {f : Fault} (h : execLdVxMem x s = .fault f) :
    f = .memoryAddressOutOfRange (s.i.toNat + x.val) := by
  unfold execLdVxMem at h
  split at h
  · cases h
  · next e => cases h; exact State.load_fault e

/-! ## Only raw data is illegal -/

/-- An instruction that can fail otherwise fails with a fault of its own; the rest complete. -/
theorem eq_dw_of_exec_illegalInstruction {i : Instr} {s : State} {w : Word}
    (h : exec i s = .fault (.illegalInstruction w)) : i = .dw w := by
  cases i with
  | dw v => cases h; rfl
  | ret => simpa using execRet_fault h
  | jp nnn => simpa using State.jumpTo_fault h
  | call nnn => simpa using execCall_fault h
  | jpV0 nnn => simpa using State.jumpTo_fault h
  | drw x y n => simpa using execDrw_fault h
  | skp x => simpa using State.skipOnKey_fault h
  | sknp x => simpa using State.skipOnKey_fault h
  | ldVxK x => simpa using execLdVxK_fault h
  | ldF x => simpa using execLdF_fault h
  | ldB x => simpa using State.storeAtBase_fault h
  | ldMemVx x => simpa using State.storeAtBase_fault h
  | ldVxMem x => simpa using execLdVxMem_fault h
  | _ => cases h

/-- Settles O35: the catch-all is reached with the whole word, raw data answers its word in every state, and no other
instruction's faults include `IllegalInstruction`. -/
theorem rawDataAlwaysStops : Obligations.RawDataAlwaysStops :=
  fun _ _ => ⟨decode_of_no_row_matches, rfl, fun _ => eq_dw_of_exec_illegalInstruction⟩

end Sys2Proof.Machine

/-! PROOF of `LoadsOfRegisters` (R101, R103), `AddImmediateWraps` (R102) and `LogicBitByBit` (R104 to R106). Each of the six
instructions is the one operation `State.result` on a byte computed from the operands, so `State.result_spec` gives the value,
the `pc` and the frame; what is left to show is what the byte is. -/

namespace Sys2Proof.Machine

theorem exec_ldImm (x : Reg) (kk : Byte) (s : State) : exec (.ldImm x kk) s = s.result x kk := rfl
theorem exec_addImm (x : Reg) (kk : Byte) (s : State) : exec (.addImm x kk) s = s.result x (s.getV x + kk) := rfl
theorem exec_ldReg (x y : Reg) (s : State) : exec (.ldReg x y) s = s.result x (s.getV y) := rfl
theorem exec_orReg (x y : Reg) (s : State) : exec (.orReg x y) s = s.result x (s.getV x ||| s.getV y) := rfl
theorem exec_andReg (x y : Reg) (s : State) : exec (.andReg x y) s = s.result x (s.getV x &&& s.getV y) := rfl
theorem exec_xorReg (x y : Reg) (s : State) : exec (.xorReg x y) s = s.result x (s.getV x ^^^ s.getV y) := rfl

/-- `State.result_spec` with its frame by name: a result completes and changes `V[x]` and `pc` only. -/
theorem State.result_sameButRegPc (s : State) (x : Reg) (r : Byte) :
    ∃ t, s.result x r = .next t ∧ t.getV x = r ∧ t.pc = s.pc + 2#16 ∧ SameButRegPc x s t := by
  obtain ⟨t, hnext, hval, hother, ht⟩ := s.result_spec x r
  have hpc : t.pc = s.pc + 2#16 := congrArg State.pc ht
  have hrest : SameButRegsPc s t := by rwa [← hpc] at ht
  exact ⟨t, hnext, hval, hpc, hother, hrest⟩

/-- Settles O36: the byte written is the immediate, and the value of `Vy`. -/
theorem loadsOfRegisters : Obligations.LoadsOfRegisters := by
  intro x y kk s
  rw [exec_ldImm, exec_ldReg]
  exact ⟨s.result_sameButRegPc x kk, s.result_sameButRegPc x (s.getV y)⟩

/-- Settles O37: the byte written is the sum of the two bytes, whose number is the sum of theirs modulo 256. -/
theorem addImmediateWraps : Obligations.AddImmediateWraps := by
  intro x kk s
  rw [exec_addImm]
  obtain ⟨t, hnext, hval, hframe⟩ := s.result_sameButRegPc x (s.getV x + kk)
  exact ⟨t, hnext, by rw [hval, BitVec.toNat_add], hframe⟩

/-- Settles O38: the byte written is the bitwise operation on the operands, whose bits are the operation on their bits. -/
theorem logicBitByBit : Obligations.LogicBitByBit := by
  intro x y s
  rw [exec_orReg, exec_andReg, exec_xorReg]
  refine ⟨?_, ?_, ?_⟩
  · obtain ⟨t, hnext, hval, hframe⟩ := s.result_sameButRegPc x (s.getV x ||| s.getV y)
    exact ⟨t, hnext, fun b _ => by rw [hval, BitVec.getLsbD_or], hframe⟩
  · obtain ⟨t, hnext, hval, hframe⟩ := s.result_sameButRegPc x (s.getV x &&& s.getV y)
    exact ⟨t, hnext, fun b _ => by rw [hval, BitVec.getLsbD_and], hframe⟩
  · obtain ⟨t, hnext, hval, hframe⟩ := s.result_sameButRegPc x (s.getV x ^^^ s.getV y)
    exact ⟨t, hnext, fun b _ => by rw [hval, BitVec.getLsbD_xor], hframe⟩

end Sys2Proof.Machine

/-! PROOF of `LoadIndex` (R120). The arm of `LD I, addr` sets `I` to the address widened to 16 bits, and `pc` advances; the widening
loses no bit, so no address needs a range check. -/

namespace Sys2Proof.Machine

theorem exec_ldI (nnn : Addr) (s : State) : exec (.ldI nnn) s = .next { s with i := nnn.setWidth 16 }.advance := rfl

/-- Settles O43: the next state is the one with `I` the widened address, and a 12-bit number is kept by widening to 16 bits. -/
theorem loadIndex : Obligations.LoadIndex := by
  intro nnn s
  have hwiden : (nnn.setWidth 16).toNat = nnn.toNat := BitVec.toNat_setWidth_of_le (by decide)
  exact ⟨_, exec_ldI nnn s, hwiden, rfl⟩

end Sys2Proof.Machine

/-! PROOF of `QuitOnlyFromKeyboardInstructions` (R157). By the faults of the checked operations, `QuitRequested` is answered by
`SKP`, `SKNP` and `LD Vx, K` only. For the rest, every instruction but these three and `RND` commutes with any change of the
inputs, and `RND` with a change that its draw does not see; a change of the key samples and answers is one. -/

namespace Sys2Proof.Machine

/-! ## Who answers QuitRequested -/

/-- No instruction but the three of the keyboard has `QuitRequested` among its faults. -/
theorem keyboard_of_exec_quitRequested {i : Instr} {s : State} (h : exec i s = .fault .quitRequested) :
    ∃ x, i = .skp x ∨ i = .sknp x ∨ i = .ldVxK x := by
  cases i with
  | skp x => exact ⟨x, .inl rfl⟩
  | sknp x => exact ⟨x, .inr (.inl rfl)⟩
  | ldVxK x => exact ⟨x, .inr (.inr rfl)⟩
  | ret => simpa using execRet_fault h
  | jp nnn => simpa using State.jumpTo_fault h
  | call nnn => simpa using execCall_fault h
  | jpV0 nnn => simpa using State.jumpTo_fault h
  | drw x y n => simpa using execDrw_fault h
  | ldF x => simpa using execLdF_fault h
  | ldB x => simpa using State.storeAtBase_fault h
  | ldMemVx x => simpa using State.storeAtBase_fault h
  | ldVxMem x => simpa using execLdVxMem_fault h
  | _ => cases h

theorem State.fetch_fault {s : State} {f : Fault} (h : s.fetch = .error f) : f = .programCounterOutOfRange s.pc.toNat := by
  rw [State.fetch_eq] at h
  split at h
  · cases h; rfl
  · cases h

/-- What a step that faults does: it fetches nothing (R81), or the fetched instruction's fault is its own. -/
theorem step_fault {s : State} {f : Fault} (h : step s = .fault f) :
    f = .programCounterOutOfRange s.pc.toNat ∨ ∃ w, s.fetch = .ok w ∧ exec (decode w) s = .fault f := by
  unfold step at h
  split at h
  · next e => cases h; exact .inl (State.fetch_fault e)
  · next w e =>
    split at h
    · cases h
    · next e' => cases h; exact .inr ⟨w, e, e'⟩
    · cases h

/-! ## A change of the inputs and the shared operations -/

/-- The state with its inputs changed by `g`. -/
def State.mapInputs (g : Inputs → Inputs) (s : State) : State := { s with inputs := g s.inputs }

section
variable (g : Inputs → Inputs) (s : State)

theorem State.jumpTo_mapInputs (t : Nat) : (s.mapInputs g).jumpTo t = mapNext (State.mapInputs g) (s.jumpTo t) := by
  unfold State.jumpTo
  cases checkTarget t <;> rfl

theorem State.storeAtBase_mapInputs (bs : List Byte) :
    (s.mapInputs g).storeAtBase bs = mapNext (State.mapInputs g) (s.storeAtBase bs) := by
  have hstore : (s.mapInputs g).store s.base bs = (s.store s.base bs).map (State.mapInputs g) := by
    rw [State.store_eq, State.store_eq]
    split_ifs <;> rfl
  unfold State.storeAtBase
  rw [show (s.mapInputs g).base = s.base from rfl, hstore]
  cases s.store s.base bs <;> rfl

theorem execRet_mapInputs : execRet (s.mapInputs g) = mapNext (State.mapInputs g) (execRet s) := by
  unfold execRet
  by_cases hsp : 0 < s.sp.val
  · rw [State.pop_ok s hsp, State.pop_ok (s.mapInputs g) hsp]
    exact State.jumpTo_mapInputs g { s with sp := ⟨s.sp.val - 1, by omega⟩ } _
  · rw [State.pop_empty s hsp, State.pop_empty (s.mapInputs g) hsp]
    rfl

theorem execCall_mapInputs (nnn : Addr) : execCall nnn (s.mapInputs g) = mapNext (State.mapInputs g) (execCall nnn s) := by
  unfold execCall
  cases checkTarget (absoluteTarget nnn) with
  | error f => rfl
  | ok pc =>
    by_cases hsp : s.sp.val < 16
    · rw [State.push_ok s _ hsp, State.push_ok (s.mapInputs g) _ hsp]
      rfl
    · rw [State.push_full s _ hsp, State.push_full (s.mapInputs g) _ hsp]
      rfl

theorem execDrw_mapInputs (x y : Reg) (n : Fin 16) :
    execDrw x y n (s.mapInputs g) = mapNext (State.mapInputs g) (execDrw x y n s) := by
  unfold execDrw
  rw [show (s.mapInputs g).load (s.mapInputs g).base n.val = s.load s.base n.val from rfl]
  cases s.load s.base n.val <;> rfl

theorem execLdF_mapInputs (x : Reg) : execLdF x (s.mapInputs g) = mapNext (State.mapInputs g) (execLdF x s) := by
  unfold execLdF
  rw [show (s.mapInputs g).digit x = s.digit x from rfl]
  cases s.digit x <;> rfl

theorem execLdVxMem_mapInputs (x : Reg) :
    execLdVxMem x (s.mapInputs g) = mapNext (State.mapInputs g) (execLdVxMem x s) := by
  unfold execLdVxMem
  rw [show (s.mapInputs g).load (s.mapInputs g).base (x.val + 1) = s.load s.base (x.val + 1) from rfl]
  cases s.load s.base (x.val + 1) <;> rfl

/-- `RND` sees of the inputs only its own draw (R112). -/
theorem execRnd_mapInputs (x : Reg) (kk : Byte)
    (hdraw : (g s.inputs).randomByte = (s.inputs.randomByte.1, g s.inputs.randomByte.2)) :
    execRnd x kk (s.mapInputs g) = mapNext (State.mapInputs g) (execRnd x kk s) := by
  unfold execRnd
  rw [show (s.mapInputs g).inputs.randomByte = _ from hdraw]
  rfl

/-- Every instruction but the three of the keyboard commutes with a change of the inputs; `RND` does where its draw does. -/
theorem exec_mapInputs {i : Instr} (hkeys : ∀ x, i ≠ .skp x ∧ i ≠ .sknp x ∧ i ≠ .ldVxK x)
    (hdraw : ∀ x kk, i = .rnd x kk → (g s.inputs).randomByte = (s.inputs.randomByte.1, g s.inputs.randomByte.2)) :
    exec i (s.mapInputs g) = mapNext (State.mapInputs g) (exec i s) := by
  cases i with
  | skp x => exact absurd rfl (hkeys x).1
  | sknp x => exact absurd rfl (hkeys x).2.1
  | ldVxK x => exact absurd rfl (hkeys x).2.2
  | rnd x kk => exact execRnd_mapInputs g s x kk (hdraw x kk rfl)
  | ret => exact execRet_mapInputs g s
  | jp nnn => exact State.jumpTo_mapInputs g s _
  | call nnn => exact execCall_mapInputs g s nnn
  | jpV0 nnn => exact State.jumpTo_mapInputs g s _
  | drw x y n => exact execDrw_mapInputs g s x y n
  | ldF x => exact execLdF_mapInputs g s x
  | ldB x => exact State.storeAtBase_mapInputs g s _
  | ldMemVx x => exact State.storeAtBase_mapInputs g s _
  | ldVxMem x => exact execLdVxMem_mapInputs g s x
  | _ => rfl

end

/-! ## A change of the key samples and answers -/

/-- The inputs with other key samples (mask and quit, R140) and other key-wait answers (R144) lined up. -/
def Inputs.setKeys (samples : List KeySample) (answers : List KeyAnswer) (e : Inputs) : Inputs :=
  { e with keySamples := samples, keyAnswers := answers }

/-- A random draw does not see the keys, and leaves them. -/
theorem Inputs.randomByte_setKeys (samples : List KeySample) (answers : List KeyAnswer) (e : Inputs) :
    (e.setKeys samples answers).randomByte = (e.randomByte.1, e.randomByte.2.setKeys samples answers) := by
  obtain ⟨randomBytes, _, _, _, _, _⟩ := e
  cases randomBytes <;> rfl

/-- Settles O18: the faults of the checked operations leave `QuitRequested` to the keyboard instructions, a fetch fails with
another fault, and every other instruction commutes with the change of the keys. -/
theorem quitOnlyFromKeyboardInstructions : Obligations.QuitOnlyFromKeyboardInstructions := by
  refine ⟨fun i s => keyboard_of_exec_quitRequested, fun s hstep => ?_, fun i s samples answers hkeys => ?_⟩
  · rcases step_fault hstep with hfetch | ⟨w, hfetch, hexec⟩
    · cases hfetch
    · exact ⟨w, hfetch, keyboard_of_exec_quitRequested hexec⟩
  · exact exec_mapInputs (Inputs.setKeys samples answers) s hkeys fun _ _ _ => Inputs.randomByte_setKeys samples answers s.inputs

end Sys2Proof.Machine

/-! PROOF of `FieldsAreSlices` (R62), `OnlyClsAndRetOverlap` (R67), `RawDataIsTheIllegalWords` (R69), both round trips and
`DecodeSampleWords`. Two rows that match one word agree where both their masks look, and a scan of the pairs of rows shows that only
CLS and RET agree with another row. So a word is decoded by whichever row matches it: the round trips then reduce to what one
row makes of its words, a matter of the fields as slices. -/

namespace Sys2Proof.Machine

/-! ## The fields as slices (R61, R62) -/

theorem fieldX_slice (w : Word) : (fieldX w).val = w.toNat / 256 % 16 := by
  have hmask : (w &&& 0x0F00#16) >>> 8 = (w >>> 8) &&& 0x000F#16 := BitVec.ushiftRight_and_distrib w 0x0F00#16 8
  rw [fieldX_val, show extract .registerX w = _ from hmask, and_000F, BitVec.toNat_ushiftRight, Nat.shiftRight_eq_div_pow]

theorem fieldY_slice (w : Word) : (fieldY w).val = w.toNat / 16 % 16 := by
  have hmask : (w &&& 0x00F0#16) >>> 4 = (w >>> 4) &&& 0x000F#16 := BitVec.ushiftRight_and_distrib w 0x00F0#16 4
  rw [fieldY_val, show extract .registerY w = _ from hmask, and_000F, BitVec.toNat_ushiftRight, Nat.shiftRight_eq_div_pow]

theorem fieldN_slice (w : Word) : (fieldN w).val = w.toNat % 16 := by
  rw [fieldN_val, extract, OperandKind.maskShift, shiftRight_mask, and_000F, Nat.pow_zero, Nat.div_one]

theorem fieldKK_slice (w : Word) : (fieldKK w).toNat = w.toNat % 256 := by
  rw [fieldKK_toNat, extract, OperandKind.maskShift, shiftRight_mask, and_00FF, Nat.pow_zero, Nat.div_one]

theorem fieldNNN_slice (w : Word) : (fieldNNN w).toNat = w.toNat % 4096 := by
  rw [fieldNNN_toNat, extract, OperandKind.maskShift, shiftRight_mask, and_0FFF, Nat.pow_zero, Nat.div_one]

/-- Settles O6: each field is its mask and shift, which are a division and a remainder. -/
theorem fieldsAreSlices : Obligations.FieldsAreSlices :=
  fun w => ⟨fieldX_slice w, fieldY_slice w, fieldN_slice w, fieldKK_slice w, fieldNNN_slice w⟩

/-! ## The fields of an encoded word (R61) -/

@[simp] theorem fieldNNN_formatA (op : BitVec 4) (nnn : Addr) : fieldNNN (formatA op nnn) = nnn := by
  have := nnn.isLt
  apply BitVec.eq_of_toNat_eq
  rw [fieldNNN_slice, formatA_toNat]
  omega

@[simp] theorem fieldX_formatXK (op : BitVec 4) (x : Reg) (kk : Byte) : fieldX (formatXK op x kk) = x := by
  have := kk.isLt
  apply Fin.ext
  rw [fieldX_slice, formatXK_toNat]
  omega

@[simp] theorem fieldKK_formatXK (op : BitVec 4) (x : Reg) (kk : Byte) : fieldKK (formatXK op x kk) = kk := by
  have := kk.isLt
  apply BitVec.eq_of_toNat_eq
  rw [fieldKK_slice, formatXK_toNat]
  omega

@[simp] theorem fieldX_formatXYN (op : BitVec 4) (x y : Reg) (n : BitVec 4) : fieldX (formatXYN op x y n) = x := by
  have := n.isLt
  apply Fin.ext
  rw [fieldX_slice, formatXYN_toNat]
  omega

@[simp] theorem fieldY_formatXYN (op : BitVec 4) (x y : Reg) (n : BitVec 4) : fieldY (formatXYN op x y n) = y := by
  have := n.isLt
  apply Fin.ext
  rw [fieldY_slice, formatXYN_toNat]
  omega

@[simp] theorem fieldN_formatXYN (op : BitVec 4) (x y : Reg) (n : Fin 16) : fieldN (formatXYN op x y (regField n)) = n := by
  apply Fin.ext
  rw [fieldN_slice, formatXYN_toNat, regField_toNat]
  omega

/-! ## Which rows match one word (R67) -/

/-- Two rows agree where both their masks look: what any word that both match must show. -/
theorem pattern_agree_of_rowMatches {r q : OpcodeRow} {w : Word} (hr : rowMatches r w = true) (hq : rowMatches q w = true) :
    r.pattern &&& q.mask = q.pattern &&& r.mask := by
  rw [← eq_of_beq hr, ← eq_of_beq hq, BitVec.and_assoc, BitVec.and_assoc, BitVec.and_comm r.mask]

/-- Of two instruction rows that agree where both masks look, the earlier one is CLS or RET, whose mask is the whole word. -/
theorem instructionRows_pairwise : instructionRows.Pairwise fun r q => r.pattern &&& q.mask = q.pattern &&& r.mask →
    r.mask = 0xFFFF#16 ∧ (r.pattern = 0x00E0#16 ∨ r.pattern = 0x00EE#16) := by
  decide

/-- The two rows are the same, or match no word together but that of CLS or RET. -/
def OverlapOnlyAtClsRet (r q : OpcodeRow) : Prop :=
  ∀ w, rowMatches r w = true → rowMatches q w = true → w = 0x00E0#16 ∨ w = 0x00EE#16 ∨ r = q

theorem OverlapOnlyAtClsRet.symm {r q : OpcodeRow} (h : OverlapOnlyAtClsRet r q) : OverlapOnlyAtClsRet q r :=
  fun w hq hr => by simpa only [eq_comm] using h w hr hq

theorem overlapOnlyAtClsRet {r q : OpcodeRow} (hr : r ∈ instructionRows) (hq : q ∈ instructionRows) :
    OverlapOnlyAtClsRet r q := by
  have : Std.Symm OverlapOnlyAtClsRet := ⟨fun _ _ => OverlapOnlyAtClsRet.symm⟩
  refine List.Pairwise.forall_of_forall (fun r _ w _ _ => .inr (.inr rfl)) ?_ hr hq
  refine instructionRows_pairwise.imp fun {r q} h w hr hq => ?_
  obtain ⟨hmask, hpattern⟩ := h (pattern_agree_of_rowMatches hr hq)
  have hw : w = r.pattern := by
    rw [← eq_of_beq hr, hmask]
    exact BitVec.and_allOnes.symm
  exact hpattern.imp hw.trans fun h => .inl (hw.trans h)

/-- Settles O4: two rows that match another word are the same row. -/
theorem onlyClsAndRetOverlap : Obligations.OnlyClsAndRetOverlap := by
  refine ⟨fun w r hr q hq hrw hqw hne => ?_, by decide, by decide⟩
  rcases overlapOnlyAtClsRet hr hq w hrw hqw with h | h | h
  · exact .inl h
  · exact .inr h
  · exact absurd (congrArg OpcodeRow.mnemonic h) hne

/-! ## Raw data (R69) -/

/-- The illegal words are those that no instruction row matches: for each leading nibble, the rows left out are what the list says. -/
theorem isRawData_iff (w : Word) : isRawData w = true ↔ ∀ r ∈ instructionRows, rowMatches r w = false := by
  have := w.isLt
  have hop : w.toNat / 4096 < 16 := by omega
  simp only [← Bool.not_eq_true, rowMatches_iff, instructionRows, opcodeRows1, opcodeRows2, opcodeRows3, opcodeRows4,
    List.cons_append, List.nil_append, List.forall_mem_cons, and_FFFF, and_F000, and_F00F, and_F0FF, isRawData]
  interval_cases h : w.toNat / 4096 <;> simp <;> omega

/-! ## The row that decides (R64) -/

/-- The row that decodes a word is an instruction row that matches it, or the word is raw data. -/
theorem decode_cases (w : Word) :
    (∃ r ∈ instructionRows, rowMatches r w = true ∧ decode w = r.make w) ∨ isRawData w = true ∧ decode w = .dw w := by
  cases hfind : instructionRows.find? (rowMatches · w) with
  | some r =>
    refine .inl ⟨r, List.mem_of_find?_eq_some hfind, List.find?_some (p := (rowMatches · w)) hfind, decode_of_find? ?_⟩
    rw [opcodeTable, List.find?_append, hfind, Option.some_or]
  | none =>
    have hno : ∀ r ∈ instructionRows, rowMatches r w = false := by simpa using hfind
    exact .inr ⟨(isRawData_iff w).2 hno, decode_of_no_row_matches hno⟩

/-- No instruction row makes raw data. -/
theorem make_ne_dw {r : OpcodeRow} (hr : r ∈ instructionRows) (w v : Word) : r.make w ≠ .dw v := by
  simp only [instructionRows, opcodeRows1, opcodeRows2, opcodeRows3, opcodeRows4, List.cons_append, List.nil_append] at hr
  fin_cases hr <;> exact Instr.noConfusion

/-- Settles O5: an illegal word is left to the catch-all, and no instruction row makes raw data. -/
theorem rawDataIsTheIllegalWords : Obligations.RawDataIsTheIllegalWords := by
  refine fun w => ⟨fun hraw => decode_of_no_row_matches ((isRawData_iff w).1 hraw), fun v hv => ?_⟩
  rcases decode_cases w with ⟨r, hr, -, hdecode⟩ | ⟨hraw, hdecode⟩
  · exact absurd (hdecode ▸ hv) (make_ne_dw hr w v)
  · rw [hdecode, Instr.dw.injEq] at hv
    exact ⟨hraw, hv.symm⟩

/-- Any instruction row that matches a word decides it, if what it makes of the word is well formed: that shuts out SYS on the
words of CLS and RET, the only words with a second row. -/
theorem decode_eq_make {r : OpcodeRow} (hr : r ∈ instructionRows) {w : Word} (hrw : rowMatches r w = true)
    (hwf : (r.make w).wf = true) : decode w = r.make w := by
  have hcls : ∀ r ∈ instructionRows, rowMatches r 0x00E0#16 = true → (r.make 0x00E0#16).wf = true →
      decode 0x00E0#16 = r.make 0x00E0#16 := by decide
  have hret : ∀ r ∈ instructionRows, rowMatches r 0x00EE#16 = true → (r.make 0x00EE#16).wf = true →
      decode 0x00EE#16 = r.make 0x00EE#16 := by decide
  rcases decode_cases w with ⟨q, hq, hqw, hdecode⟩ | ⟨hraw, -⟩
  · rcases overlapOnlyAtClsRet hr hq w hrw hqw with rfl | rfl | rfl
    · exact hcls r hr hrw hwf
    · exact hret r hr hrw hwf
    · exact hdecode
  · rw [(isRawData_iff w).1 hraw r hr] at hrw
    cases hrw

/-! ## The round trips -/

/-- The word of an instruction lies in the row of the opcode table that stands for it (R66). -/
theorem encodesInRow (i : Instr) : Laws.EncodesInRow.Statement i := by
  open Laws.EncodesInRow in
  cases i with
  | cls => exact cls
  | ret => exact ret
  | sys nnn => exact sys nnn
  | jp nnn => exact jp nnn
  | call nnn => exact call nnn
  | seImm x kk => exact seImm x kk
  | sneImm x kk => exact sneImm x kk
  | seReg x y => exact seReg x y
  | ldImm x kk => exact ldImm x kk
  | addImm x kk => exact addImm x kk
  | ldReg x y => exact ldReg x y
  | orReg x y => exact orReg x y
  | andReg x y => exact andReg x y
  | xorReg x y => exact xorReg x y
  | addReg x y => exact addReg x y
  | subReg x y => exact subReg x y
  | shr x y => exact shr x y
  | subnReg x y => exact subnReg x y
  | shl x y => exact shl x y
  | sneReg x y => exact sneReg x y
  | ldI nnn => exact ldI nnn
  | jpV0 nnn => exact jpV0 nnn
  | rnd x kk => exact rnd x kk
  | drw x y n => exact drw x y n
  | skp x => exact skp x
  | sknp x => exact sknp x
  | ldVxDT x => exact ldVxDT x
  | ldVxK x => exact ldVxK x
  | ldDTVx x => exact ldDTVx x
  | ldSTVx x => exact ldSTVx x
  | addI x => exact addI x
  | ldF x => exact ldF x
  | ldB x => exact ldB x
  | ldMemVx x => exact ldMemVx x
  | ldVxMem x => exact ldVxMem x
  | dw w => exact dw w

/-- The row of an instruction makes the instruction again from its word: the fields are the operands. -/
theorem make_encode {i : Instr} {r : OpcodeRow} (h : opcodeTable[rowIndex i]? = some r) : r.make (encode i) = i := by
  cases i <;> cases h <;> simp [encode, rawDataRow, extract_rawData]

/-- Only raw data stands outside the instruction rows. -/
theorem mem_instructionRows {i : Instr} (hi : ∀ w, i ≠ .dw w) {r : OpcodeRow} (h : opcodeTable[rowIndex i]? = some r) :
    r ∈ instructionRows := by
  have hlt : rowIndex i < instructionRows.length := by
    cases i with
    | dw w => exact absurd rfl (hi w)
    | _ => exact Nat.le_of_ble_eq_true rfl
  rw [opcodeTable, List.getElem?_append_left hlt] at h
  exact List.mem_of_getElem? h

/-- Settles O1: an illegal word is left to the catch-all; any other instruction's word lies in its own row, which decides it and
makes the instruction again. -/
theorem decodeEncodeRoundTrip : Obligations.DecodeEncodeRoundTrip := by
  intro i hwf
  by_cases hdw : ∃ w, i = .dw w
  · obtain ⟨w, rfl⟩ := hdw
    exact (rawDataIsTheIllegalWords w).1 hwf
  · obtain ⟨r, hrow, hmatch⟩ := encodesInRow i
    have hmake := make_encode hrow
    have hr := mem_instructionRows (not_exists.1 hdw) hrow
    rw [decode_eq_make hr hmatch (by rwa [hmake]), hmake]

/-- What an instruction row makes of a word that it matches encodes to the word: mask and operands cover every bit. -/
theorem encode_make {r : OpcodeRow} (hr : r ∈ instructionRows) {w : Word} (hrw : rowMatches r w = true) :
    encode (r.make w) = w := by
  have := w.isLt
  rw [rowMatches_iff] at hrw
  apply BitVec.eq_of_toNat_eq
  simp only [instructionRows, opcodeRows1, opcodeRows2, opcodeRows3, opcodeRows4, List.cons_append, List.nil_append] at hr
  fin_cases hr <;>
    simp only [and_FFFF, and_F000, and_F00F, and_F0FF, BitVec.toNat_ofNat] at hrw <;>
    simp only [encode, formatA_toNat, formatXK_toNat, formatXYN_toNat, regField_toNat, fieldX_slice, fieldY_slice, fieldN_slice,
      fieldKK_slice, fieldNNN_slice, BitVec.toNat_ofNat, Nat.reducePow, Nat.reduceMod, Nat.reduceMul] <;>
    omega

/-- What decodes from a word is well formed: SYS never takes the words of CLS and RET. -/
theorem wf_decode (w : Word) : (decode w).wf = true := by
  rcases decode_cases w with ⟨r, hr, hrw, hdecode⟩ | ⟨hraw, hdecode⟩
  · cases hi : decode w with
    | sys nnn =>
      have hw : w = formatA 0x0#4 nnn := by rw [← encode_make hr hrw, ← hdecode, hi, encode]
      rw [Instr.wf, Bool.and_eq_true, bne_iff_ne, bne_iff_ne]
      constructor
      · rintro rfl
        rw [hw, show decode (formatA 0x0#4 0x0E0#12) = .cls by decide] at hi
        cases hi
      · rintro rfl
        rw [hw, show decode (formatA 0x0#4 0x0EE#12) = .ret by decide] at hi
        cases hi
    | dw v => exact absurd (hdecode ▸ hi) (make_ne_dw hr w v)
    | _ => rfl
  · rwa [hdecode]

/-- Settles O2: whichever row decides, the operands and the row's mask cover the word. -/
theorem encodeDecodeRoundTrip : Obligations.EncodeDecodeRoundTrip := by
  refine fun w => ⟨wf_decode w, ?_⟩
  rcases decode_cases w with ⟨r, hr, hrw, hdecode⟩ | ⟨-, hdecode⟩ <;> rw [hdecode]
  · exact encode_make hr hrw
  · rfl

/-- Settles O7: the scan of the table, run on the twelve words. -/
theorem decodeSampleWords : Obligations.DecodeSampleWords := by
  unfold Obligations.DecodeSampleWords
  decide

end Sys2Proof.Machine

/-! PROOF of `OutcomeIsTheErrorTables` (R151, R152, R158) and of the statements over all instructions that follow from it. `exec` is
brought to one closed form: the error that the tables give, or else a next state that is a total function of the instruction
and the state. A frame or noninterference statement is then one about the tables and that function, read off its rows. -/

namespace Sys2Proof.Machine

/-! ## The errors of the tables -/

theorem targetError_of_out {t : Nat} (h : t < 0x200 ∨ 0xFFF < t) : targetError t = some (.programCounterOutOfRange t) :=
  if_pos h

theorem targetError_of_odd {t : Nat} (hlow : 0x200 ≤ t) (hhigh : t ≤ 0xFFF) (hodd : t % 2 = 1) :
    targetError t = some (.programCounterMisaligned t) := by
  rw [targetError, if_neg (by omega), if_pos hodd]

@[simp] theorem targetError_none_iff (t : Nat) : targetError t = none ↔ 0x200 ≤ t ∧ t ≤ 0xFFF ∧ t % 2 = 0 := by
  unfold targetError
  split
  · simp; omega
  · split
    · simp; omega
    · simp; omega

@[simp] theorem lastByteError_none_iff (last : Nat) : lastByteError last = none ↔ last ≤ 0xFFF := by
  simp [lastByteError]

theorem lastByteError_of_above {last : Nat} (h : 0xFFF < last) : lastByteError last = some (.memoryAddressOutOfRange last) :=
  if_pos h

theorem storeError_of_guarded {first : Nat} (h : first < 0x200) (last : Nat) :
    storeError first last = some (.memoryWriteGuardViolation first) := if_pos h

theorem storeError_of_unguarded {first : Nat} (h : 0x200 ≤ first) (last : Nat) :
    storeError first last = lastByteError last := if_neg (by omega)

@[simp] theorem storeError_none_iff (first last : Nat) : storeError first last = none ↔ 0x200 ≤ first ∧ last ≤ 0xFFF := by
  by_cases h : first < 0x200
  · simp [storeError_of_guarded h, h]
  · simp [storeError_of_unguarded (Nat.le_of_not_lt h), Nat.le_of_not_lt h]

theorem digitError_of_above {value : Byte} (h : 15 < value.toNat) : digitError value = some (.registerValueOutOfRange value) :=
  if_pos h

@[simp] theorem digitError_none_iff (value : Byte) : digitError value = none ↔ value.toNat ≤ 15 := by
  simp [digitError]

/-- `CALL` completes with a good target and a free stack entry. -/
theorem errorOf_call_none_iff (nnn : Addr) (s : State) :
    errorOf (.call nnn) s = none ↔ targetError nnn.toNat = none ∧ s.sp.val < 16 := by
  have := s.sp.isLt
  rw [errorOf]
  cases targetError nnn.toNat with
  | some f => simp
  | none => simp; omega

/-! ## The closed form -/

/-- The outcome with this error, or with this next state where there is none. -/
def outcome (e : Option Fault) (t : State) : Result :=
  match e with
  | some f => .fault f
  | none => .next t

@[simp] theorem outcome_some (f : Fault) (t : State) : outcome (some f) t = .fault f := rfl
@[simp] theorem outcome_none (t : State) : outcome none t = .next t := rfl

@[simp] theorem mapNext_outcome (g : State → State) (e : Option Fault) (t : State) :
    mapNext g (outcome e t) = outcome e (g t) := by
  cases e <;> rfl

theorem outcome_next {e : Option Fault} {t u : State} (h : outcome e t = .next u) : e = none ∧ u = t := by
  cases e <;> cases h
  exact ⟨rfl, rfl⟩

/-- The newest entry in use of the stack, or entry 0 if none is. -/
def State.top (s : State) : Word := s.stack[s.sp.val - 1]'(by omega)

/-- The digit of a key-wait answer; the quit sentinel, which carries none, counts as 0. -/
def keyDigit : KeyAnswer → Fin 16
  | .key d => d
  | .quitSentinel => 0

/-- The bytes of a data access of length `n`: those from `I` upwards. -/
def State.bytesAtBase (s : State) (n : Nat) : List Byte := (List.range n).map fun k => Memory.read s.mem (s.base + k)

/-- Registers with their first ones replaced by bytes, as `State.setPrefix` does. Irreducible: comparing them with other registers
by unfolding is costly. -/
@[irreducible] def withPrefix (v : Vector Byte 16) (bs : List Byte) : Vector Byte 16 :=
  Vector.ofFn fun k : Fin 16 => bs.getD k.val (v.get k)

theorem State.setPrefix_eq (s : State) (bs : List Byte) : s.setPrefix bs = { s with v := withPrefix s.v bs } := by
  rw [State.setPrefix, withPrefix]

/-- What a sprite of `n` rows at `(V[x], V[y])` makes of the framebuffer, and whether it collides. -/
def State.drawn (s : State) (x y : Reg) (n : Fin 16) : Framebuffer × Bool :=
  Framebuffer.draw s.fb (s.spriteX x) (s.spriteY y) (s.bytesAtBase n.val)

/-- Whether the bit of the sampled key mask that `V[x]` names is set. -/
def State.keyDown (s : State) (x : Reg) : Bool := s.inputs.keySample.1.mask.getLsbD (s.getV x).toNat

/-- The state with bytes stored from `I` upwards. -/
def State.stored (s : State) (bs : List Byte) : State := { s with mem := Memory.writeBytes s.mem s.base bs }

/-- The state an instruction leaves where it completes. -/
def after : Instr → State → State
  | .cls, s => { s with fb := Framebuffer.clear }.advance
  | .ret, s => { s with pc := s.top, sp := ⟨s.sp.val - 1, by omega⟩ }
  | .sys _, s => s.advance
  | .jp nnn, s => { s with pc := BitVec.ofNat 16 nnn.toNat }
  | .call nnn, s =>
    { s with
      stack := s.stack.setIfInBounds s.sp.val (s.pc + 2#16)
      sp := Fin.ofNat 17 (s.sp.val + 1)
      pc := BitVec.ofNat 16 nnn.toNat }
  | .seImm x kk, s => s.skipWhen (s.getV x == kk)
  | .sneImm x kk, s => s.skipWhen (s.getV x != kk)
  | .seReg x y, s => s.skipWhen (s.getV x == s.getV y)
  | .ldImm x kk, s => (s.setV x kk).advance
  | .addImm x kk, s => (s.setV x (s.getV x + kk)).advance
  | .ldReg x y, s => (s.setV x (s.getV y)).advance
  | .orReg x y, s => (s.setV x (s.getV x ||| s.getV y)).advance
  | .andReg x y, s => (s.setV x (s.getV x &&& s.getV y)).advance
  | .xorReg x y, s => (s.setV x (s.getV x ^^^ s.getV y)).advance
  | .addReg x y, s => ((s.setFlag (carryFlag (s.getV x) (s.getV y))).setV x (s.getV x + s.getV y)).advance
  | .subReg x y, s => ((s.setFlag (greaterFlag (s.getV x) (s.getV y))).setV x (s.getV x - s.getV y)).advance
  | .shr x _, s => ((s.setFlag (shiftedOutRight (s.getV x))).setV x (s.getV x >>> 1)).advance
  | .subnReg x y, s => ((s.setFlag (greaterFlag (s.getV y) (s.getV x))).setV x (s.getV y - s.getV x)).advance
  | .shl x _, s => ((s.setFlag (shiftedOutLeft (s.getV x))).setV x (s.getV x <<< 1)).advance
  | .sneReg x y, s => s.skipWhen (s.getV x != s.getV y)
  | .ldI nnn, s => { s with i := nnn.setWidth 16 }.advance
  | .jpV0 nnn, s => { s with pc := BitVec.ofNat 16 (nnn.toNat + (s.getV 0).toNat) }
  | .rnd x kk, s => ({ s with inputs := s.inputs.randomByte.2 }.setV x (s.inputs.randomByte.1 &&& kk)).advance
  | .drw x y n, s => ({ s with fb := (s.drawn x y n).1 }.setFlag (s.drawn x y n).2).advance
  | .skp x, s => { s with inputs := s.inputs.keySample.2 }.skipWhen (s.keyDown x == true)
  | .sknp x, s => { s with inputs := s.inputs.keySample.2 }.skipWhen (s.keyDown x == false)
  | .ldVxDT x, s => (s.setV x s.dt).advance
  | .ldVxK x, s =>
    ({ s with inputs := s.inputs.keyAnswer.2 }.setV x (BitVec.ofNat 8 (keyDigit s.inputs.keyAnswer.1).val)).advance
  | .ldDTVx x, s => { s with dt := s.getV x }.advance
  | .ldSTVx x, s => { s with st := s.getV x }.advance
  | .addI x, s => { s with i := s.i + (s.getV x).setWidth 16 }.advance
  | .ldF x, s => { s with i := BitVec.ofNat 16 (5 * (s.getV x).toNat) }.advance
  | .ldB x, s => (s.stored (decimalDigits (s.getV x))).advance
  | .ldMemVx x, s => (s.stored (s.getPrefix x)).advance
  | .ldVxMem x, s => { s with v := withPrefix s.v (s.bytesAtBase (x.val + 1)) }.advance
  | .dw _, s => s

theorem checkTarget_eq (t : Nat) :
    checkTarget t = match targetError t with
      | some f => .error f
      | none => .ok (BitVec.ofNat 16 t) := by
  rcases checkTarget_cases t with ⟨e, h⟩ | ⟨e, hlow, hhigh, hodd⟩ | ⟨e, h⟩ <;> rw [e]
  · rw [targetError_of_out h]
  · rw [targetError_of_odd hlow hhigh hodd]
  · rw [(targetError_none_iff t).2 h]

theorem State.jumpTo_eq (s : State) (t : Nat) :
    s.jumpTo t = outcome (targetError t) { s with pc := BitVec.ofNat 16 t } := by
  rw [State.jumpTo, checkTarget_eq]
  cases targetError t <;> rfl

/-- A checked load of one byte or more has the table's error for its last byte. -/
theorem State.load_succ_eq (s : State) (a n : Nat) :
    s.load a (n + 1) = match lastByteError (a + n) with
      | some f => .error f
      | none => .ok ((List.range (n + 1)).map fun k => Memory.read s.mem (a + k)) := by
  simp only [State.load_eq, lastByteError, Nat.zero_lt_succ, true_and, Nat.add_succ_sub_one]
  split_ifs <;> rfl

/-- A checked store of one byte or more has the table's error for its first and last byte. -/
theorem State.store_eq_storeError (s : State) (a : Nat) {bs : List Byte} (hbs : 0 < bs.length) :
    s.store a bs = match storeError a (a + bs.length - 1) with
      | some f => .error f
      | none => .ok { s with mem := Memory.writeBytes s.mem a bs } := by
  simp only [State.store_eq, storeError, lastByteError, hbs, true_and]
  split_ifs <;> rfl

theorem State.storeAtBase_eq (s : State) {bs : List Byte} (hbs : 0 < bs.length) :
    s.storeAtBase bs = outcome (storeError s.i.toNat (s.i.toNat + bs.length - 1)) (s.stored bs).advance := by
  rw [State.storeAtBase, s.store_eq_storeError _ hbs, State.base]
  cases storeError s.i.toNat (s.i.toNat + bs.length - 1) <;> rfl

theorem State.skipOnKey_eq (s : State) (x : Reg) (wanted : Bool) :
    s.skipOnKey x wanted = outcome (keyError (s.getV x) s.inputs.keySample.1.quit)
      ({ s with inputs := s.inputs.keySample.2 }.skipWhen (s.keyDown x == wanted)) := by
  rw [State.skipOnKey, keyError]
  by_cases hx : (s.getV x).toNat ≤ 15
  · rw [State.digit_ok s x (by omega), (digitError_none_iff _).2 hx]
    cases s.inputs.keySample.1.quit <;> rfl
  · rw [State.digit_error s x (by omega), digitError_of_above (by omega)]
    rfl

theorem execRet_eq (s : State) : execRet s = outcome (errorOf .ret s) (after .ret s) := by
  rw [execRet, errorOf]
  by_cases hsp : s.sp.val = 0
  · rw [State.pop_empty s (by omega), dif_pos hsp]
    rfl
  · rw [State.pop_ok s (by omega), dif_neg hsp]
    refine (State.jumpTo_eq _ _).trans ?_
    rw [BitVec.ofNat_toNat, BitVec.setWidth_eq]
    rfl

theorem execCall_eq (nnn : Addr) (s : State) : execCall nnn s = outcome (errorOf (.call nnn) s) (after (.call nnn) s) := by
  rw [execCall, absoluteTarget, checkTarget_eq, errorOf]
  cases targetError nnn.toNat with
  | some f => rfl
  | none =>
    by_cases hsp : s.sp.val = 16
    · simp [State.push_full s _ (by omega : ¬ s.sp.val < 16), hsp]
    · have hlt : s.sp.val < 16 := by omega
      have hsucc : Fin.ofNat 17 (s.sp.val + 1) = ⟨s.sp.val + 1, Nat.succ_lt_succ hlt⟩ :=
        Fin.ext (Nat.mod_eq_of_lt (Nat.succ_lt_succ hlt))
      have hstack : s.stack.setIfInBounds s.sp.val (s.pc + 2#16) = s.stack.set s.sp.val (s.pc + 2#16) hlt :=
        Vector.ext fun k hk => by simp [Vector.getElem_setIfInBounds, Vector.getElem_set]
      rw [State.push_ok s _ hlt, after, hsucc, hstack]
      dsimp only
      rw [if_neg hsp, outcome_none]

theorem execDrw_eq (x y : Reg) (n : Fin 16) (s : State) :
    execDrw x y n s = outcome (errorOf (.drw x y n) s) (after (.drw x y n) s) := by
  obtain ⟨n, hn⟩ := n
  cases n with
  | zero => rfl
  | succ n =>
    rw [execDrw, State.load_succ_eq, State.base, errorOf]
    dsimp only
    rw [if_neg (Nat.succ_ne_zero n), Nat.add_succ_sub_one]
    cases lastByteError (s.i.toNat + n) <;> rfl

theorem execLdVxK_eq (x : Reg) (s : State) : execLdVxK x s = outcome (errorOf (.ldVxK x) s) (after (.ldVxK x) s) := by
  rw [execLdVxK, errorOf, after]
  cases s.inputs.keyAnswer.1 <;> rfl

theorem execLdF_eq (x : Reg) (s : State) : execLdF x s = outcome (errorOf (.ldF x) s) (after (.ldF x) s) := by
  rw [execLdF, errorOf]
  by_cases hx : (s.getV x).toNat ≤ 15
  · rw [State.digit_ok s x (by omega), (digitError_none_iff _).2 hx]
    rfl
  · rw [State.digit_error s x (by omega), digitError_of_above (by omega)]
    rfl

theorem execLdVxMem_eq (x : Reg) (s : State) : execLdVxMem x s = outcome (errorOf (.ldVxMem x) s) (after (.ldVxMem x) s) := by
  rw [execLdVxMem, State.load_succ_eq, State.base, errorOf, after, ← State.setPrefix_eq]
  cases lastByteError (s.i.toNat + x.val) <;> rfl

/-- Every instruction ends in the error of the tables, or else leaves the state of `after`. -/
theorem exec_eq (i : Instr) (s : State) : exec i s = outcome (errorOf i s) (after i s) := by
  cases i with
  | ret => exact execRet_eq s
  | jp nnn => exact s.jumpTo_eq nnn.toNat
  | call nnn => exact execCall_eq nnn s
  | jpV0 nnn => exact s.jumpTo_eq (s.offsetTarget nnn)
  | drw x y n => exact execDrw_eq x y n s
  | skp x => exact s.skipOnKey_eq x true
  | sknp x => exact s.skipOnKey_eq x false
  | ldVxK x => exact execLdVxK_eq x s
  | ldF x => exact execLdF_eq x s
  | ldB x => exact s.storeAtBase_eq (Nat.zero_lt_succ 2)
  | ldMemVx x =>
    refine (s.storeAtBase_eq (bs := s.getPrefix x) (by simp)).trans ?_
    rw [State.length_getPrefix]
    rfl
  | ldVxMem x => exact execLdVxMem_eq x s
  | _ => rfl

theorem exec_fault {i : Instr} {s : State} {f : Fault} (h : errorOf i s = some f) : exec i s = .fault f := by
  rw [exec_eq, h, outcome_some]

theorem exec_completes {i : Instr} {s : State} (h : errorOf i s = none) : exec i s = .next (after i s) := by
  rw [exec_eq, h, outcome_none]

/-- What an instruction that completes does. -/
theorem exec_next {i : Instr} {s t : State} (h : exec i s = .next t) : errorOf i s = none ∧ t = after i s :=
  outcome_next (exec_eq i s ▸ h)

/-- Settles O17: the closed form has the error of the tables, or else a next state. -/
theorem outcomeIsTheErrorTables : Obligations.OutcomeIsTheErrorTables := by
  intro i s
  split
  · next f h => exact exec_fault h
  · next h => exact ⟨_, exec_completes h⟩
end Sys2Proof.Machine

/-! PROOF of the noninterference and frame statements over all instructions: `InputsReachOnlyDrawingInstructions` (R112, R140, R144),
`SoundTimerAndFlagCellAreNeverRead` (R18, D1), `FramebufferIsDrawAndClearOnly` (R135), `StackIsCallAndReturnOnly` (R25),
`IndexAndTimersWrittenByTheirLoads` (R16 to R18), `RegistersWrittenAsTabled` (R12, R14), `MemoryWrittenAsTabled` (R46) and
`ProgramCounterMovesAsTabled` (R20, R85). Each is a fact about the error tables and `after`, instruction by instruction. -/

namespace Sys2Proof.Machine

/-! ## What is not read -/

/-- Settles O19: every instruction but the three of the keyboard and `RND` commutes with any change of the inputs. -/
theorem inputsReachOnlyDrawingInstructions : Obligations.InputsReachOnlyDrawingInstructions := by
  intro i s e hdrawing
  exact exec_mapInputs (fun _ => e) s (fun x => (hdrawing x 0).2) fun x kk hi => absurd hi (hdrawing x kk).1

theorem errorOf_setSt (i : Instr) (s : State) (b : Byte) : errorOf i { s with st := b } = errorOf i s := by
  cases i <;> rfl

/-- The sound timer reaches nothing but itself. -/
theorem after_setSt (i : Instr) (s : State) (b : Byte) :
    { after i { s with st := b } with st := 0#8 } = { after i s with st := 0#8 } := by
  cases i <;> rfl

theorem errorOf_setCell (i : Instr) (s : State) (b c : Bool) :
    errorOf i { s with flag := .cell b } = errorOf i { s with flag := .cell c } := by
  cases i <;> rfl

/-- A flag cell of its own reaches nothing but itself. -/
theorem after_setCell (i : Instr) (s : State) (b c : Bool) :
    { after i { s with flag := .cell b } with flag := .cell false } =
      { after i { s with flag := .cell c } with flag := .cell false } := by
  cases i <;> rfl

/-- Settles O20: neither the tables nor `after` read ST or the cell. -/
theorem soundTimerAndFlagCellAreNeverRead : Obligations.SoundTimerAndFlagCellAreNeverRead := by
  refine fun i s => ⟨fun b => ?_, fun b c => ?_⟩ <;> rw [exec_eq, exec_eq, mapNext_outcome, mapNext_outcome]
  · rw [errorOf_setSt, after_setSt]
  · rw [errorOf_setCell i s b c, after_setCell i s b c]

theorem errorOf_setFb (i : Instr) (s : State) (f : Framebuffer) : errorOf i { s with fb := f } = errorOf i s := by
  cases i <;> rfl

/-- Without a draw, the framebuffer reaches nothing but itself. -/
theorem after_setFb {i : Instr} (hdrw : ∀ x y n, i ≠ .drw x y n) (s : State) (f : Framebuffer) :
    { after i { s with fb := f } with fb := Framebuffer.clear } = { after i s with fb := Framebuffer.clear } := by
  cases i with
  | drw x y n => exact absurd rfl (hdrw x y n)
  | _ => rfl

theorem after_fb {i : Instr} (hcls : i ≠ .cls) (hdrw : ∀ x y n, i ≠ .drw x y n) (s : State) : (after i s).fb = s.fb := by
  cases i with
  | cls => exact absurd rfl hcls
  | drw x y n => exact absurd rfl (hdrw x y n)
  | _ => rfl

/-- Settles O21: the rows of `after` but those of `CLS` and `DRW` leave the framebuffer, and only that of `DRW` reads it. -/
theorem framebufferIsDrawAndClearOnly : Obligations.FramebufferIsDrawAndClearOnly := by
  refine ⟨fun i s t h hcls hdrw => ?_, fun i s f hdrw => ?_⟩
  · rw [(exec_next h).2, after_fb hcls hdrw]
  · rw [exec_eq, exec_eq, mapNext_outcome, mapNext_outcome, errorOf_setFb, after_setFb hdrw]

theorem errorOf_setStack {i : Instr} (hret : i ≠ .ret) (hcall : ∀ nnn, i ≠ .call nnn) (s : State) (p : Fin 17)
    (m : Vector Word 16) : errorOf i { s with sp := p, stack := m } = errorOf i s := by
  cases i with
  | ret => exact absurd rfl hret
  | call nnn => exact absurd rfl (hcall nnn)
  | _ => rfl

/-- No instruction but `CALL` and `RET` reads or writes the stack. -/
theorem after_setStack {i : Instr} (hret : i ≠ .ret) (hcall : ∀ nnn, i ≠ .call nnn) (s : State) (p : Fin 17)
    (m : Vector Word 16) : after i { s with sp := p, stack := m } = { after i s with sp := p, stack := m } := by
  cases i with
  | ret => exact absurd rfl hret
  | call nnn => exact absurd rfl (hcall nnn)
  | _ => rfl

/-- Settles O22: the tables and `after` see the stack in the rows of `CALL` and `RET` only. -/
theorem stackIsCallAndReturnOnly : Obligations.StackIsCallAndReturnOnly := by
  intro i s p m hret hcall
  rw [exec_eq, exec_eq, mapNext_outcome, errorOf_setStack hret hcall, after_setStack hret hcall]

/-! ## What is not written -/

theorem after_i {i : Instr} (hloads : ∀ nnn x, i ≠ .ldI nnn ∧ i ≠ .addI x ∧ i ≠ .ldF x) (s : State) : (after i s).i = s.i := by
  cases i with
  | ldI nnn => exact absurd rfl (hloads nnn 0).1
  | addI x => exact absurd rfl (hloads 0 x).2.1
  | ldF x => exact absurd rfl (hloads 0 x).2.2
  | _ => rfl

theorem after_dt {i : Instr} (hload : ∀ x, i ≠ .ldDTVx x) (s : State) : (after i s).dt = s.dt := by
  cases i with
  | ldDTVx x => exact absurd rfl (hload x)
  | _ => rfl

theorem after_st {i : Instr} (hload : ∀ x, i ≠ .ldSTVx x) (s : State) : (after i s).st = s.st := by
  cases i with
  | ldSTVx x => exact absurd rfl (hload x)
  | _ => rfl

/-- Settles O23: only the rows of `after` of their loads write I, DT and ST. -/
theorem indexAndTimersWrittenByTheirLoads : Obligations.IndexAndTimersWrittenByTheirLoads := by
  intro i s t h
  obtain ⟨-, rfl⟩ := exec_next h
  exact ⟨fun hloads => after_i hloads s, fun hload => after_dt hload s, fun hload => after_st hload s⟩

/-- After `LD Vx, [I]`, `V[k]` is the byte at `I + k` for `k` up to `x`, and the other registers are as before. -/
theorem getV_after_ldVxMem (x k : Reg) (s : State) : (after (.ldVxMem x) s).getV k =
    if k.val ≤ x.val then Memory.read s.mem (s.i.toNat + k.val) else s.getV k := by
  rw [after, State.getV_advance, ← State.setPrefix_eq, State.getV_setPrefix, List.getD_eq_getElem?_getD]
  split <;> simp [State.bytesAtBase, State.base, *]

/-- A register that is no result of the instruction keeps its value. -/
theorem getV_after {i : Instr} {s : State} {k : Reg} (h : writesV s.flagAliased i k = false) :
    (after i s).getV k = s.getV k := by
  cases i with
  | ldImm | addImm | ldReg | orReg | andReg | xorReg | rnd | ldVxDT | ldVxK =>
    refine (State.getV_setV _ _ k _).trans (if_neg ?_)
    simpa [writesV] using h
  | addReg | subReg | shr | subnReg | shl => simp_all [writesV, after]
  | drw =>
    have hflag : k = 15 → s.flagAliased = false := by simpa [writesV] using h
    exact (State.getV_setFlag _ _ k).trans (if_neg fun hk => Bool.eq_false_iff.1 (hflag hk.1) hk.2)
  | ldVxMem x =>
    have hk : ¬ k.val ≤ x.val := by simpa [writesV] using h
    exact (getV_after_ldVxMem x k s).trans (if_neg hk)
  | _ => rfl

theorem after_flag {i : Instr} (h : writesFlag i = false) (s : State) : (after i s).flag = s.flag := by
  cases i with
  | addReg | subReg | shr | subnReg | shl | drw => cases h
  | _ => rfl

theorem flagAliased_after (i : Instr) (s : State) : (after i s).flagAliased = s.flagAliased := by
  cases i with
  | addReg | subReg | shr | subnReg | shl | drw => exact State.flagAliased_setFlag _ _
  | _ => rfl

/-- Settles O24: the rows of `after` write the registers and the flag that the tables name. -/
theorem registersWrittenAsTabled : Obligations.RegistersWrittenAsTabled := by
  intro i s t h
  obtain ⟨-, rfl⟩ := exec_next h
  exact ⟨fun k hk => getV_after hk, fun hflag => after_flag hflag s, flagAliased_after i s⟩

theorem read_stored_outside (s : State) (bs : List Byte) {a : Nat} (h : a < s.i.toNat ∨ s.i.toNat + bs.length ≤ a) :
    Memory.read (s.stored bs).mem a = Memory.read s.mem a :=
  Memory.read_writeBytes_outside s.mem s.base bs a h

theorem read_after_outside {i : Instr} {s : State} {a : Nat} (h : a < s.i.toNat ∨ s.i.toNat + storeLength i ≤ a) :
    Memory.read (after i s).mem a = Memory.read s.mem a := by
  cases i with
  | ldB x => exact read_stored_outside s _ h
  | ldMemVx x => exact read_stored_outside s _ (by simpa [storeLength] using h)
  | _ => rfl

/-- Settles O25: a store changes no byte outside its own. -/
theorem memoryWrittenAsTabled : Obligations.MemoryWrittenAsTabled := by
  intro i s t a h ha
  rw [(exec_next h).2, read_after_outside ha]

/-! ## How pc moves -/

theorem toNat_ofNat_of_target {t : Nat} (h : t ≤ 0xFFF) : (BitVec.ofNat 16 t).toNat = t := by
  rw [BitVec.toNat_ofNat]
  omega

/-- What a transfer that completes has for a target. -/
theorem after_pc_of_transfer {i : Instr} {s : State} (htransfer : isTransfer i = true) (h : errorOf i s = none) :
    targetError (after i s).pc.toNat = none := by
  cases i with
  | ret =>
    by_cases hsp : s.sp.val = 0
    · simp [errorOf, hsp] at h
    · rwa [errorOf, dif_neg hsp] at h
  | jp nnn =>
    have htarget := (targetError_none_iff _).1 h
    rwa [after, toNat_ofNat_of_target htarget.2.1]
  | call nnn =>
    obtain ⟨hnone, -⟩ := (errorOf_call_none_iff nnn s).1 h
    have htarget := (targetError_none_iff _).1 hnone
    rwa [after, toNat_ofNat_of_target htarget.2.1]
  | jpV0 nnn =>
    have htarget := (targetError_none_iff _).1 h
    rwa [after, toNat_ofNat_of_target htarget.2.1]
  | _ => cases htransfer

theorem State.skipWhen_pc_cases (s : State) (c : Bool) :
    (s.skipWhen c).pc = s.pc + 2#16 ∨ (s.skipWhen c).pc = s.pc + 4#16 := by
  cases c
  · exact .inl rfl
  · exact .inr rfl

theorem after_pc_of_skip {i : Instr} (hskip : isSkip i = true) (s : State) :
    (after i s).pc = s.pc + 2#16 ∨ (after i s).pc = s.pc + 4#16 := by
  cases i with
  | seImm | sneImm | seReg | sneReg | skp | sknp => exact State.skipWhen_pc_cases _ _
  | _ => cases hskip

theorem after_pc_of_other {i : Instr} {s : State} (htransfer : isTransfer i = false) (hskip : isSkip i = false)
    (h : errorOf i s = none) : (after i s).pc = s.pc + 2#16 := by
  cases i with
  | ret | jp | call | jpV0 => cases htransfer
  | seImm | sneImm | seReg | sneReg | skp | sknp => cases hskip
  | dw => cases h
  | _ => rfl

/-- Settles O26: the targets of transfers are checked, and every other row of `after` skips or advances. -/
theorem programCounterMovesAsTabled : Obligations.ProgramCounterMovesAsTabled := by
  intro i s t hexec
  obtain ⟨h, rfl⟩ := exec_next hexec
  refine ⟨fun htransfer => ?_, fun hskip => after_pc_of_skip hskip s, fun htransfer hskip => after_pc_of_other htransfer hskip h⟩
  have htarget := (targetError_none_iff _).1 (after_pc_of_transfer htransfer h)
  omega

end Sys2Proof.Machine

/-! PROOF of the statements about the step, the fetch and reset-and-load, of the two over whole steps, `StepKeepsTheInvariant` (R21,
R84) and `GuardedRegionIsNeverWritten` (R48), and of the timer ticks (R165, R166). A step is `exec` on the fetched word and then
the boundary, which touches neither memory, `pc` nor stack; so both step statements are about `after` where no error arises. -/

namespace Sys2Proof.Machine

/-! ## Fetch and step (R80, R81) -/

theorem State.fetch_ok {s : State} (hpc : s.pc.toNat ≤ 0xFFE) :
    s.fetch = .ok (wordOfBytes (Memory.read s.mem s.pc.toNat) (Memory.read s.mem (s.pc.toNat + 1))) := by
  rw [State.fetch_eq, if_neg (by omega)]

theorem State.fetch_above {s : State} (hpc : 0xFFE < s.pc.toNat) :
    s.fetch = .error (.programCounterOutOfRange s.pc.toNat) := by
  rw [State.fetch_eq, if_pos hpc]

/-- A step that fetches is the instruction and then the boundary. -/
theorem step_of_fetch {s : State} {w : Word} (h : s.fetch = .ok w) :
    step s = mapNext State.boundary (exec (decode w) s) := by
  rw [step, h]
  dsimp only
  cases exec (decode w) s <;> rfl

/-- Settles O9: the two bytes are the fetched word, and the boundary is the ticks. -/
theorem stepRunsTheDecodedInstruction : Obligations.StepRunsTheDecodedInstruction := by
  intro s i hpc hdecode
  have hi : decode (wordOfBytes (Memory.read s.mem s.pc.toNat) (Memory.read s.mem (s.pc.toNat + 1))) = i :=
    congrArg Prod.fst (Except.ok.inj hdecode)
  rw [step_of_fetch (State.fetch_ok hpc), hi]
  rfl

/-- Settles O10: the fetch fails and the step with it. -/
theorem fetchAboveTopFaults : Obligations.FetchAboveTopFaults := by
  intro s hpc
  rw [step, State.fetch_above hpc]
  rfl

/-! ## Reset-and-load (R180 to R183) -/

/-- Memory after reset-and-load. -/
def loadedMemory (font : Vector Byte 80) (image : List Word) : Memory :=
  Memory.writeBytes (Memory.writeBytes [] 0 font.toList) 0x200 (imageBytes image)

/-- The state after reset-and-load. -/
def loadedState (aliased : Bool) (font : Vector Byte 80) (image : List Word) : State :=
  { State.reset with flag := resetFlag aliased, mem := loadedMemory font image }

theorem resetAndLoad_of_le (aliased : Bool) (font : Vector Byte 80) {image : List Word} (h : image.length ≤ 1792) :
    resetAndLoad aliased font image = .next (loadedState aliased font image) := if_pos h

theorem resetAndLoad_of_gt (aliased : Bool) (font : Vector Byte 80) {image : List Word} (h : 1792 < image.length) :
    resetAndLoad aliased font image = .refused (.imageTooLong image.length) := if_neg (by omega)

theorem resetAndLoad_next {aliased : Bool} {font : Vector Byte 80} {image : List Word} {s : State}
    (h : resetAndLoad aliased font image = .next s) : image.length ≤ 1792 ∧ s = loadedState aliased font image := by
  by_cases hlen : image.length ≤ 1792
  · rw [resetAndLoad_of_le aliased font hlen] at h
    cases h
    exact ⟨hlen, rfl⟩
  · rw [resetAndLoad_of_gt aliased font (by omega)] at h
    cases h

/-- Settles O12: the length is checked first. -/
theorem overlongImageIsRefused : Obligations.OverlongImageIsRefused :=
  fun aliased font _ hlen => resetAndLoad_of_gt aliased font hlen

@[simp] theorem length_imageBytes (image : List Word) : (imageBytes image).length = 2 * image.length := by
  induction image with
  | nil => rfl
  | cons w ws ih => simp [imageBytes, ih]; omega

/-- The bytes of an image are those of its words, the high one first. -/
theorem getElem_imageBytes (image : List Word) (k : Nat) (h : k < image.length) :
    (imageBytes image)[2 * k]? = some (highByte image[k]) ∧ (imageBytes image)[2 * k + 1]? = some (lowByte image[k]) := by
  induction image generalizing k with
  | nil => simp at h
  | cons w ws ih =>
    cases k with
    | zero => exact ⟨rfl, rfl⟩
    | succ k => simpa [imageBytes, Nat.mul_succ] using ih k (by simpa using h)

theorem Memory.pairwise_fontMemory (font : Vector Byte 80) :
    (Memory.writeBytes [] 0 font.toList).Pairwise fun c d => c.1 < d.1 :=
  Memory.pairwise_writeBytes _ _ _ List.Pairwise.nil

/-- Each byte of the image is at its place from 0x200. -/
theorem read_loadedMemory_image (font : Vector Byte 80) (image : List Word) {k : Nat} {b : Byte}
    (h : (imageBytes image)[k]? = some b) : Memory.read (loadedMemory font image) (0x200 + k) = b := by
  obtain ⟨hk, hb⟩ := List.getElem?_eq_some_iff.1 h
  rw [loadedMemory, Memory.read_writeBytes_inside _ _ _ k hk (Memory.pairwise_fontMemory font), hb]

/-- The font is at 0x000 to 0x04F. -/
theorem read_loadedMemory_font (font : Vector Byte 80) (image : List Word) (a : Fin 80) :
    Memory.read (loadedMemory font image) a.val = font.get a := by
  have hinside := Memory.read_writeBytes_inside [] 0 font.toList a.val (by simp) List.Pairwise.nil
  rw [loadedMemory, Memory.read_writeBytes_outside _ _ _ _ (by omega)]
  simpa [Vector.get_eq_getElem] using hinside

/-- Every byte outside font and image is 0. -/
theorem read_loadedMemory_rest (font : Vector Byte 80) (image : List Word) {a : Nat} (hfont : 80 ≤ a)
    (himage : a < 0x200 ∨ 0x200 + 2 * image.length ≤ a) : Memory.read (loadedMemory font image) a = 0#8 := by
  rw [loadedMemory, Memory.read_writeBytes_outside _ _ _ _ (by simpa using himage),
    Memory.read_writeBytes_outside _ _ _ _ (.inr (by simpa using hfont)), Memory.read_nil]
  exact List.getD_eq_default fontTable _ hfont

theorem wf_loadedMemory (font : Vector Byte 80) {image : List Word} (h : image.length ≤ 1792) :
    Memory.wf (loadedMemory font image) := by
  refine Memory.wf_writeBytes _ _ _ (Memory.wf_writeBytes _ _ _ Memory.wf_reset (by simp)) ?_
  rw [length_imageBytes]
  omega

/-- Settles O8: fetch and load put the high byte at the lower address. -/
theorem fetchAndImageAreBigEndian : Obligations.FetchAndImageAreBigEndian := by
  refine ⟨fun s hpc => ⟨_, State.fetch_ok hpc, wordOfBytes_toNat _ _⟩, fun aliased font image s hload k hk => ?_⟩
  obtain ⟨-, rfl⟩ := resetAndLoad_next hload
  obtain ⟨hhigh, hlow⟩ := getElem_imageBytes image k hk
  rw [loadedState, read_loadedMemory_image font image hhigh, Nat.add_assoc, read_loadedMemory_image font image hlow,
    ← wordOfBytes_toNat, wordOfBytes_high_low]

/-- Settles O11: the load changes the reset state in flag and memory only, whose bytes are font, image and zero. -/
theorem resetAndLoadLeavesTheResetState : Obligations.ResetAndLoadLeavesTheResetState := by
  intro aliased font image hlen
  have hV (k : Reg) : State.reset.getV k = 0#8 := by simp [State.getV, State.reset, Vector.get_eq_getElem]
  have himage (k : Nat) (hk : k < image.length) := getElem_imageBytes image k hk
  refine ⟨loadedState aliased font image, resetAndLoad_of_le aliased font hlen, ?_, ?_, hV, rfl, rfl, rfl, rfl, rfl, ?_,
    read_loadedMemory_font font image, fun a hfont ha => read_loadedMemory_rest font image hfont (.inl ha),
    fun k hk => ⟨read_loadedMemory_image font image (himage k hk).1, read_loadedMemory_image font image (himage k hk).2⟩,
    fun a ha => read_loadedMemory_rest font image (by omega) (.inr ha), Framebuffer.read_clear⟩
  · cases aliased <;> rfl
  · cases aliased
    · rfl
    · exact hV 15
  · intro k
    simp [loadedState, State.reset, Vector.get_eq_getElem]

/-! ## The invariant (R21, R84) -/

/-- A state at 0x200 with an empty stack meets the invariant where its memory is in canonical form. -/
theorem State.inv_of_start {s : State} (hmem : Memory.wf s.mem) (hpc : s.pc = 0x200#16) (hsp : s.sp = 0) : s.Inv := by
  refine ⟨hmem, ?_, fun k hk => ?_⟩
  · rw [State.PcOk, hpc]
    decide
  · rw [hsp] at hk
    exact absurd hk (Nat.not_lt_zero _)

/-- Settles O13: writing the default font to a memory that reads as it lists nothing. -/
theorem resetIsAnEmptyLoad : Obligations.ResetIsAnEmptyLoad := by
  refine ⟨fun font hfont => ?_, State.inv_of_start Memory.wf_reset rfl rfl⟩
  have hmem : loadedMemory font [] = [] := by
    rw [loadedMemory, hfont]
    decide
  rw [resetAndLoad_of_le true font (Nat.zero_le _), loadedState, hmem]
  rfl

/-- Settles O14: a load starts at 0x200 with an empty stack and writes inside memory. -/
theorem loadedStateMeetsTheInvariant : Obligations.LoadedStateMeetsTheInvariant := by
  intro aliased font image s hload
  obtain ⟨hlen, rfl⟩ := resetAndLoad_next hload
  exact State.inv_of_start (wf_loadedMemory font hlen) rfl rfl

/-- An instruction that completes stores nothing, or inside 0x200..0xFFF. -/
theorem store_bounds {i : Instr} {s : State} (h : errorOf i s = none) :
    storeLength i = 0 ∨ 0x200 ≤ s.i.toNat ∧ s.i.toNat + storeLength i ≤ 4096 := by
  cases i with
  | ldB x =>
    obtain ⟨hguard, hrange⟩ := (storeError_none_iff _ _).1 h
    exact .inr ⟨hguard, Nat.succ_le_succ hrange⟩
  | ldMemVx x =>
    obtain ⟨hguard, hrange⟩ := (storeError_none_iff _ _).1 h
    exact .inr ⟨hguard, Nat.succ_le_succ hrange⟩
  | _ => exact .inl rfl

theorem wf_stored {s : State} {bs : List Byte} (hmem : Memory.wf s.mem) (h : s.i.toNat + bs.length ≤ 4096) :
    Memory.wf (s.stored bs).mem := Memory.wf_writeBytes s.mem s.base bs hmem h

theorem wf_after {i : Instr} {s : State} (h : errorOf i s = none) (hmem : Memory.wf s.mem) : Memory.wf (after i s).mem := by
  have hbounds := store_bounds h
  cases i with
  | ldB x => exact wf_stored hmem (hbounds.resolve_left (Nat.succ_ne_zero _)).2
  | ldMemVx x =>
    refine wf_stored hmem ?_
    rw [State.length_getPrefix]
    exact (hbounds.resolve_left (Nat.succ_ne_zero _)).2
  | _ => exact hmem

theorem pcOk_after {i : Instr} {s : State} (h : errorOf i s = none) (htop : s.pc.toNat ≤ 0xFFE) (hpc : s.PcOk) :
    (after i s).PcOk := by
  obtain ⟨heven, hlow, -⟩ := hpc
  have hadd2 : (s.pc + 2#16).toNat = s.pc.toNat + 2 := by bv_omega
  have hadd4 : (s.pc + 4#16).toNat = s.pc.toNat + 4 := by bv_omega
  unfold State.PcOk
  by_cases htransfer : isTransfer i = true
  · have htarget := (targetError_none_iff _).1 (after_pc_of_transfer htransfer h)
    omega
  · by_cases hskip : isSkip i = true
    · rcases after_pc_of_skip hskip s with hnext | hnext <;> rw [hnext] <;> omega
    · rw [after_pc_of_other (Bool.eq_false_iff.2 htransfer) (Bool.eq_false_iff.2 hskip) h]
      omega

/-- `CALL` puts the address of the next instruction into the first free entry. -/
theorem stack_after_call (nnn : Addr) (s : State) (k : Fin 16) :
    (after (.call nnn) s).stack.get k = if k.val = s.sp.val then s.pc + 2#16 else s.stack.get k := by
  simp only [after, Vector.get_eq_getElem, Vector.getElem_setIfInBounds, eq_comm]

theorem sp_after_call (nnn : Addr) {s : State} (h : s.sp.val < 16) : (after (.call nnn) s).sp.val = s.sp.val + 1 :=
  Nat.mod_eq_of_lt (Nat.succ_lt_succ h)

theorem stackOk_after {i : Instr} {s : State} (h : errorOf i s = none) (htop : s.pc.toNat ≤ 0xFFE) (hpc : s.PcOk)
    (hstack : s.StackOk) : (after i s).StackOk := by
  cases i with
  | ret => exact fun k hk => hstack k (Nat.lt_of_lt_of_le hk (Nat.sub_le _ _))
  | call nnn =>
    obtain ⟨-, hsp⟩ := (errorOf_call_none_iff nnn s).1 h
    intro k hk
    rw [sp_after_call nnn hsp] at hk
    rw [stack_after_call]
    split
    · obtain ⟨heven, hlow, -⟩ := hpc
      have hpush : (s.pc + 2#16).toNat = s.pc.toNat + 2 := by bv_omega
      omega
    · exact hstack k (by omega)
  | _ => exact hstack

/-- An instruction that completes below the top of memory keeps the invariant. -/
theorem inv_after {i : Instr} {s : State} (h : errorOf i s = none) (htop : s.pc.toNat ≤ 0xFFE) (hs : s.Inv) :
    (after i s).Inv := by
  obtain ⟨hmem, hpc, hstack⟩ := hs
  exact ⟨wf_after h hmem, pcOk_after h htop hpc, stackOk_after h htop hpc hstack⟩

/-- Settles O15: the fetch keeps `pc` at most 0xFFE, the instruction keeps the invariant, and the boundary's ticks touch none of
its parts. -/
theorem stepKeepsTheInvariant : Obligations.StepKeepsTheInvariant := by
  intro s t hs hstep
  obtain ⟨htop, u, hexec, rfl⟩ := step_next hstep
  obtain ⟨h, rfl⟩ := exec_next hexec
  exact inv_after h htop hs

/-- Settles O16: what is stored lies at 0x200 or above, and nothing else in memory changes. -/
theorem guardedRegionIsNeverWritten : Obligations.GuardedRegionIsNeverWritten := by
  intro s t a hstep ha
  obtain ⟨-, u, hexec, rfl⟩ := step_next hstep
  have hbounds := store_bounds (exec_next hexec).1
  exact memoryWrittenAsTabled _ s u a hexec (by omega)

/-! ## Timer ticks (R165, R166) -/

theorem decrement_toNat (t : Byte) : (decrement t).toNat = t.toNat - 1 := by
  rw [← countDown_zero t, ← countDown_succ 0 t, countDown_toNat, countDown_zero]

/-- Settles O59: a decrement takes one, and stops at 0. -/
theorem tickDecrementsBothTimers : Obligations.TickDecrementsBothTimers :=
  fun s => ⟨decrement_toNat s.dt, decrement_toNat s.st, rfl⟩

theorem tickTimes_eq_iterate (s : State) (n : Nat) : s.tickTimes n = State.tick^[n] s := by
  induction n with
  | zero => exact s.tickTimes_zero
  | succ n ih => rw [State.tickTimes_succ, ih, Function.iterate_succ_apply']

/-- Settles O60: one tick more is one more decrement, and a count down stops at 0. -/
theorem boundaryTicksAreSingleTicks : Obligations.BoundaryTicksAreSingleTicks :=
  fun s n => ⟨tickTimes_eq_iterate s n, countDown_toNat n s.dt, countDown_toNat n s.st⟩

end Sys2Proof.Machine

/-! PROOF of the control-flow statements: `SysOnlyAdvances` (R83), `JumpIsChecked` (R86), `JumpOffsetIsChecked` (R92),
`CallPushesTheReturnAddress` (R87), `ReturnPopsThePc` (R84) and `ReturnComesBackAfterTheCall`. The errors are those of the tables,
and what is left else is the row of `after`. -/

namespace Sys2Proof.Machine

/-- Settles O27: its arm ignores the address. -/
theorem sysOnlyAdvances : Obligations.SysOnlyAdvances := fun _ _ => rfl

/-- Settles O30: a 12-bit target is never above 0xFFF. -/
theorem jumpIsChecked : Obligations.JumpIsChecked := by
  intro nnn s
  have hhigh : nnn.toNat ≤ 0xFFF := Nat.le_of_lt_succ nnn.isLt
  exact ⟨fun hlow => exec_fault (targetError_of_out (.inl hlow)),
    fun hlow hodd => exec_fault (targetError_of_odd hlow hhigh hodd),
    fun hlow heven => exec_completes ((targetError_none_iff _).2 ⟨hlow, hhigh, heven⟩)⟩

/-- Settles O31: the target is the untruncated sum. -/
theorem jumpOffsetIsChecked : Obligations.JumpOffsetIsChecked := by
  rintro nnn s _ rfl
  exact ⟨fun hout => exec_fault (targetError_of_out hout),
    fun hlow hhigh hodd => exec_fault (targetError_of_odd hlow hhigh hodd),
    fun hlow hhigh heven => exec_completes ((targetError_none_iff _).2 ⟨hlow, hhigh, heven⟩)⟩

/-! ## Call and return -/

theorem errorOf_call_of_target {nnn : Addr} {f : Fault} (h : targetError nnn.toNat = some f) (s : State) :
    errorOf (.call nnn) s = some f := by
  rw [errorOf, h]

theorem errorOf_call_full {nnn : Addr} {s : State} (h : targetError nnn.toNat = none) (hsp : s.sp.val = 16) :
    errorOf (.call nnn) s = some .callStackOverflow := by
  rw [errorOf, h]
  exact if_pos hsp

/-- Settles O32: target, then overflow, then the push. -/
theorem callPushesTheReturnAddress : Obligations.CallPushesTheReturnAddress := by
  intro nnn s
  have hhigh : nnn.toNat ≤ 0xFFF := Nat.le_of_lt_succ nnn.isLt
  refine ⟨fun hlow => exec_fault (errorOf_call_of_target (targetError_of_out (.inl hlow)) s),
    fun hlow hodd => exec_fault (errorOf_call_of_target (targetError_of_odd hlow hhigh hodd) s),
    fun hlow heven hsp => exec_fault (errorOf_call_full ((targetError_none_iff _).2 ⟨hlow, hhigh, heven⟩) hsp),
    fun hlow heven hsp => ?_⟩
  have hnone := (errorOf_call_none_iff nnn s).2 ⟨(targetError_none_iff _).2 ⟨hlow, hhigh, heven⟩, hsp⟩
  exact ⟨_, exec_completes hnone, toNat_ofNat_of_target hhigh, sp_after_call nnn hsp, stack_after_call nnn s, rfl⟩

/-- The newest entry is the one below `sp`. -/
theorem State.top_eq {s : State} {k : Fin 16} (h : s.sp.val = k.val + 1) : s.top = s.stack.get k := by
  simp only [State.top, h, Nat.add_sub_cancel, Vector.get_eq_getElem]

theorem errorOf_ret_empty {s : State} (h : s.sp.val = 0) : errorOf .ret s = some .callStackUnderflow := dif_pos h

theorem errorOf_ret {s : State} {k : Fin 16} (h : s.sp.val = k.val + 1) :
    errorOf .ret s = targetError (s.stack.get k).toNat := by
  rw [← State.top_eq h]
  exact dif_neg (by omega)

theorem sp_after_ret (s : State) : (after .ret s).sp.val = s.sp.val - 1 := rfl

/-- Settles O33: underflow, then the target check on the newest entry, then the pop. -/
theorem returnPopsThePc : Obligations.ReturnPopsThePc := by
  refine fun s => ⟨fun hsp => exec_fault (errorOf_ret_empty hsp), ?_⟩
  rintro k hsp _ rfl
  have herror := errorOf_ret hsp
  refine ⟨fun hout => exec_fault (herror.trans (targetError_of_out hout)),
    fun hlow hhigh hodd => exec_fault (herror.trans (targetError_of_odd hlow hhigh hodd)), fun hlow hhigh heven => ?_⟩
  refine ⟨_, exec_completes (herror.trans ((targetError_none_iff _).2 ⟨hlow, hhigh, heven⟩)), State.top_eq hsp, ?_, rfl⟩
  rw [sp_after_ret, hsp, Nat.add_sub_cancel]

/-- Settles O34: the entry `RET` finds is the one `CALL` pushed, an even address in range. -/
theorem returnComesBackAfterTheCall : Obligations.ReturnComesBackAfterTheCall := by
  intro nnn s t heven hlow hhigh hcall
  obtain ⟨h, rfl⟩ := exec_next hcall
  obtain ⟨-, hsp⟩ := (errorOf_call_none_iff nnn s).1 h
  have hsp' : (after (.call nnn) s).sp.val = (⟨s.sp.val, hsp⟩ : Fin 16).val + 1 := sp_after_call nnn hsp
  have htop : (after (.call nnn) s).stack.get ⟨s.sp.val, hsp⟩ = s.pc + 2#16 := by rw [stack_after_call, if_pos rfl]
  have hpush : (s.pc + 2#16).toNat = s.pc.toNat + 2 := by bv_omega
  have hret : errorOf .ret (after (.call nnn) s) = none := by
    rw [errorOf_ret hsp', htop, targetError_none_iff]
    omega
  have hback : (after .ret (after (.call nnn) s)).sp = s.sp := 
    Fin.ext (by rw [sp_after_ret, hsp', Nat.add_sub_cancel])
  refine ⟨_, exec_completes hret, (State.top_eq hsp').trans htop, hback, ?_⟩
  calc after .ret (after (.call nnn) s)
    _ = { s with
          pc := (after .ret (after (.call nnn) s)).pc
          sp := (after .ret (after (.call nnn) s)).sp
          stack := (after (.call nnn) s).stack } := rfl
    _ = _ := by rw [hback]

end Sys2Proof.Machine

/-! PROOF of `AddSetsCarry` (R107), `SubtractionsSetNoBorrow` (R108, R110), `ShiftsSetTheBitShiftedOut` (R109, R111) and
`RandomIsMasked` (R112). The five that write the flag are the one operation `State.flagThenResult`, so `State.flagThenResult_spec` gives
value, flag and frame; what is left to show is the number of the result and of the flag. -/

namespace Sys2Proof.Machine

theorem exec_addReg (x y : Reg) (s : State) : exec (.addReg x y) s =
    s.flagThenResult x (carryFlag (s.getV x) (s.getV y)) (s.getV x + s.getV y) := rfl
theorem exec_subReg (x y : Reg) (s : State) : exec (.subReg x y) s =
    s.flagThenResult x (greaterFlag (s.getV x) (s.getV y)) (s.getV x - s.getV y) := rfl
theorem exec_subnReg (x y : Reg) (s : State) : exec (.subnReg x y) s =
    s.flagThenResult x (greaterFlag (s.getV y) (s.getV x)) (s.getV y - s.getV x) := rfl
theorem exec_shr (x y : Reg) (s : State) : exec (.shr x y) s =
    s.flagThenResult x (shiftedOutRight (s.getV x)) (s.getV x >>> 1) := rfl
theorem exec_shl (x y : Reg) (s : State) : exec (.shl x y) s =
    s.flagThenResult x (shiftedOutLeft (s.getV x)) (s.getV x <<< 1) := rfl

/-- Settles O39: the carry is decided by the sum of the numbers. -/
theorem addSetsCarry : Obligations.AddSetsCarry := by
  intro x y s
  rw [exec_addReg]
  obtain ⟨t, hnext, hval, hflag, hframe⟩ :=
    s.flagThenResult_spec x (carryFlag (s.getV x) (s.getV y)) (s.getV x + s.getV y)
  simp only [carryFlag, decide_eq_true_eq] at hflag
  exact ⟨t, hnext, by rw [hval, BitVec.toNat_add], hflag, hframe⟩

/-- A flag that says strictly greater and then a difference, as `SUB` does and `SUBN` with its operands exchanged. -/
theorem State.flagThenDifference_spec (s : State) (x : Reg) (a b : Byte) :
    ∃ t, s.flagThenResult x (greaterFlag a b) (a - b) = .next t ∧ (t.getV x).toNat = (256 + a.toNat - b.toNat) % 256 ∧
    (x ≠ 15 ∨ s.flagAliased = false → t.flagByte = if a.toNat > b.toNat then 1#8 else 0#8) ∧
    t.pc = s.pc + 2#16 ∧ SameButRegFlagPc x s t := by
  obtain ⟨t, hnext, hval, hflag, hframe⟩ := s.flagThenResult_spec x (greaterFlag a b) (a - b)
  simp only [greaterFlag, decide_eq_true_eq] at hflag
  have hsub : 256 - b.toNat + a.toNat = 256 + a.toNat - b.toNat := by have := b.isLt; omega
  exact ⟨t, hnext, by rw [hval, BitVec.toNat_sub, ← hsub], hflag, hframe⟩

/-- Settles O40: both are a difference after its flag. -/
theorem subtractionsSetNoBorrow : Obligations.SubtractionsSetNoBorrow := by
  rintro x y s _ _ rfl rfl
  rw [exec_subReg, exec_subnReg]
  exact ⟨s.flagThenDifference_spec x _ _, s.flagThenDifference_spec x _ _⟩

theorem shiftedOutRight_toNat (a : Byte) : (if shiftedOutRight a then 1#8 else 0#8).toNat = a.toNat % 2 := by
  rw [shiftedOutRight, BitVec.getLsbD, Nat.testBit_zero]
  rcases Nat.mod_two_eq_zero_or_one a.toNat with h | h <;> simp [h]

theorem shiftedOutLeft_toNat (a : Byte) : (if shiftedOutLeft a then 1#8 else 0#8).toNat = a.toNat / 128 := by
  have hbit : a.toNat / 128 = 0 ∨ a.toNat / 128 = 1 := by have := a.isLt; omega
  rw [shiftedOutLeft, BitVec.getLsbD, Nat.testBit_eq_decide_div_mod_eq]
  rcases hbit with h | h <;> simp [h]

/-- Settles O41: a shift by one is halving or doubling, and the flag is bit 0 or bit 7. -/
theorem shiftsSetTheBitShiftedOut : Obligations.ShiftsSetTheBitShiftedOut := by
  rintro x y s _ rfl
  rw [exec_shr, exec_shl]
  constructor
  · obtain ⟨t, hnext, hval, hflag, hframe⟩ := s.flagThenResult_spec x (shiftedOutRight (s.getV x)) (s.getV x >>> 1)
    refine ⟨t, hnext, ?_, fun hx => by rw [hflag hx, shiftedOutRight_toNat], hframe⟩
    rw [hval, BitVec.toNat_ushiftRight, Nat.shiftRight_eq_div_pow, Nat.pow_one]
  · obtain ⟨t, hnext, hval, hflag, hframe⟩ := s.flagThenResult_spec x (shiftedOutLeft (s.getV x)) (s.getV x <<< 1)
    refine ⟨t, hnext, ?_, fun hx => by rw [hflag hx, shiftedOutLeft_toNat], hframe⟩
    rw [hval, BitVec.toNat_shiftLeft, Nat.shiftLeft_eq, Nat.pow_one, Nat.mul_comm]

theorem exec_rnd (x : Reg) (kk : Byte) (s : State) : exec (.rnd x kk) s =
    State.result { s with inputs := s.inputs.randomByte.2 } x (s.inputs.randomByte.1 &&& kk) := rfl

theorem Inputs.randomByte_of_cons {e : Inputs} {b : Byte} {rest : List Byte} (h : e.randomBytes = b :: rest) :
    e.randomByte = (b, { e with randomBytes := rest }) := by
  rw [Inputs.randomByte, h]

theorem Inputs.randomByte_of_nil {e : Inputs} (h : e.randomBytes = []) :
    e.randomByte = (Config.freeRandom e.drawn, { e with drawn := e.drawn + 1 }) := by
  rw [Inputs.randomByte, h]

/-- Settles O42: a result on the state whose inputs are those after the draw. -/
theorem randomIsMasked : Obligations.RandomIsMasked := by
  intro x kk s
  rw [exec_rnd]
  obtain ⟨t, hnext, hval, hother, ht⟩ :=
    State.result_spec { s with inputs := s.inputs.randomByte.2 } x (s.inputs.randomByte.1 &&& kk)
  have hpc : t.pc = s.pc + 2#16 := congrArg State.pc ht
  have hinputs : t.inputs = s.inputs.randomByte.2 := congrArg State.inputs ht
  refine ⟨t, s.inputs.randomByte.1, hnext, hval, hpc, hother, fun b rest h => ?_, fun h => ?_, ?_⟩
  · rw [hinputs, Inputs.randomByte_of_cons h]
    exact ⟨rfl, rfl⟩
  · rw [hinputs, Inputs.randomByte_of_nil h]
    exact ⟨rfl, rfl⟩
  · rwa [hpc, hinputs]

end Sys2Proof.Machine

/-! PROOF of `AddIndexKeepsSixteenBits` (R121), `FontPointerIsChecked` (R122), `StoreDecimalDigits` and `DecimalDigitsMakeTheValue`
(R123), `StoreRegisters` (R124), `LoadRegisters` (R125) and `StoreIsSeenByTheNextFetch` (R53). The errors are those of the tables;
a store that completes leaves `State.stored`, whose bytes read back in a memory in canonical form. -/

namespace Sys2Proof.Machine

/-- Settles O44: the widened register is added modulo 65536, and nothing is checked. -/
theorem addIndexKeepsSixteenBits : Obligations.AddIndexKeepsSixteenBits := by
  intro x s
  have hwiden : ((s.getV x).setWidth 16).toNat = (s.getV x).toNat := BitVec.toNat_setWidth_of_le (by decide)
  refine ⟨after (.addI x) s, rfl, ?_, rfl⟩
  show (s.i + (s.getV x).setWidth 16).toNat = _
  rw [BitVec.toNat_add, hwiden]

/-- Settles O45: five times a digit fits 16 bits. -/
theorem fontPointerIsChecked : Obligations.FontPointerIsChecked := by
  refine fun x s => ⟨fun h => exec_fault (digitError_of_above h), fun h => ?_⟩
  refine ⟨_, exec_completes ((digitError_none_iff _).2 h), ?_, rfl⟩
  show (BitVec.ofNat 16 (5 * (s.getV x).toNat)).toNat = _
  rw [BitVec.toNat_ofNat]
  omega

/-! ## Stores -/

/-- Each byte stored reads back. -/
theorem read_stored {s : State} (hmem : Memory.wf s.mem) {bs : List Byte} {k : Nat} (hk : k < bs.length) :
    Memory.read (s.stored bs).mem (s.i.toNat + k) = bs[k] :=
  Memory.read_writeBytes_inside s.mem s.base bs k hk hmem.1

/-- `LD B` stores the three decimal digits of the register. -/
theorem read_after_ldB {s : State} (hmem : Memory.wf s.mem) (x : Reg) :
    (Memory.read (after (.ldB x) s).mem s.i.toNat).toNat = (s.getV x).toNat / 100 ∧
    (Memory.read (after (.ldB x) s).mem (s.i.toNat + 1)).toNat = (s.getV x).toNat / 10 % 10 ∧
    (Memory.read (after (.ldB x) s).mem (s.i.toNat + 2)).toNat = (s.getV x).toNat % 10 := by
  have hV := (s.getV x).isLt
  have hread {k : Nat} (hk : k < 3) := read_stored hmem (bs := decimalDigits (s.getV x)) (k := k) hk
  have h0 := hread (k := 0) (by decide)
  have h1 := hread (k := 1) (by decide)
  have h2 := hread (k := 2) (by decide)
  rw [after, State.advance_mem]
  rw [Nat.add_zero] at h0
  rw [h0, h1, h2]
  simp only [decimalDigits, List.getElem_cons_zero, List.getElem_cons_succ, BitVec.toNat_ofNat]
  omega

/-- Settles O46: guard, range, then the digits in memory. -/
theorem storeDecimalDigits : Obligations.StoreDecimalDigits := by
  refine fun x s => ⟨fun h => exec_fault (storeError_of_guarded h _),
    fun h hrange => exec_fault ((storeError_of_unguarded h _).trans (lastByteError_of_above hrange)),
    fun h hrange hmem => ?_⟩
  have hnone : errorOf (.ldB x) s = none := (storeError_none_iff _ _).2 ⟨h, hrange⟩
  obtain ⟨h0, h1, h2⟩ := read_after_ldB hmem x
  exact ⟨_, exec_completes hnone, h0, h1, h2, fun a ha => read_after_outside ha, wf_after hnone hmem, rfl⟩

/-- Settles O47: hundreds, tens and ones of a number below 256. -/
theorem decimalDigitsMakeTheValue : Obligations.DecimalDigitsMakeTheValue := by
  intro x s t hmem hexec
  obtain ⟨-, rfl⟩ := exec_next hexec
  obtain ⟨h0, h1, h2⟩ := read_after_ldB hmem x
  have hV := (s.getV x).isLt
  refine ⟨fun k hk => ?_, by omega⟩
  interval_cases k
  · rw [Nat.add_zero]
    omega
  · omega
  · omega

/-- `LD [I], Vx` stores `V[0]` to `V[x]`. -/
theorem read_after_ldMemVx {s : State} (hmem : Memory.wf s.mem) {x k : Reg} (hk : k.val ≤ x.val) :
    Memory.read (after (.ldMemVx x) s).mem (s.i.toNat + k.val) = s.getV k := by
  have hlen : k.val < (s.getPrefix x).length := by
    rw [State.length_getPrefix]
    omega
  exact (read_stored hmem hlen).trans (s.getPrefix_getElem x k.val hlen k.isLt)

/-- Settles O48: guard, range, then the registers in memory. -/
theorem storeRegisters : Obligations.StoreRegisters := by
  refine fun x s => ⟨fun h => exec_fault (storeError_of_guarded h _),
    fun h hrange => exec_fault ((storeError_of_unguarded h _).trans (lastByteError_of_above hrange)),
    fun h hrange hmem => ?_⟩
  have hnone : errorOf (.ldMemVx x) s = none := (storeError_none_iff _ _).2 ⟨h, hrange⟩
  exact ⟨_, exec_completes hnone, fun k hk => read_after_ldMemVx hmem hk, fun a ha => read_after_outside ha,
    wf_after hnone hmem, rfl⟩

/-- Settles O50: the fetch reads the two bytes from the old `I`, which are `V[0]` and `V[1]`. -/
theorem storeIsSeenByTheNextFetch : Obligations.StoreIsSeenByTheNextFetch := by
  intro x s t hmem hx hi hexec
  obtain ⟨h, rfl⟩ := exec_next hexec
  obtain ⟨-, hrange⟩ := (storeError_none_iff _ _).1 h
  have hpc : (after (.ldMemVx x) s).pc = s.i := hi.symm
  have h0 := read_after_ldMemVx hmem (x := x) (k := 0) (Nat.zero_le _)
  have h1 := read_after_ldMemVx hmem (x := x) (k := 1) hx
  refine ⟨_, State.fetch_ok (by rw [hpc]; omega), ?_⟩
  rw [hpc, wordOfBytes_toNat, ← h0, ← h1]
  rfl

/-- Settles O49: range, then the bytes from `I` in the registers. -/
theorem loadRegisters : Obligations.LoadRegisters := by
  refine fun x s => ⟨fun h => exec_fault (lastByteError_of_above h), fun h => ?_⟩
  exact ⟨_, exec_completes ((lastByteError_none_iff _).2 h), fun k => getV_after_ldVxMem x k s, rfl, rfl⟩

end Sys2Proof.Machine

/-! PROOF of the display statements: `ClearClearsEveryPixel` (R131), `DrawXorsTheSprite` (R133, R134), `DrawTwiceRestores`,
`BlankDrawsDoNotCollide` (R135), and of the negation of `SecondDrawAlwaysCollides`. The laws of the blit give each pixel after a
draw, covered or not, and the collision, in the sprite bits and screen positions that the statements speak of; a second draw at the
same position meets the first one's pixels with the same sprite. -/

namespace Sys2Proof.Machine

/-- Settles O51: the cleared framebuffer reads 0 everywhere. -/
theorem clearClearsEveryPixel : Obligations.ClearClearsEveryPixel :=
  fun _ => ⟨_, rfl, Framebuffer.read_clear, rfl⟩

/-! ## One draw -/

theorem spriteColumn_spriteX (s : State) (x : Reg) (c : Nat) : spriteColumn (s.spriteX x) c = s.screenX x c := by
  simp only [spriteColumn, State.spriteX, State.screenX, Fin.ext_iff, Fin.val_ofNat, Nat.mod_add_mod]

theorem spriteRow_spriteY (s : State) (y : Reg) (r : Nat) : spriteRow (s.spriteY y) r = s.screenY y r := by
  simp only [spriteRow, State.spriteY, State.screenY, Fin.ext_iff, Fin.val_ofNat, Nat.mod_add_mod]

@[simp] theorem length_bytesAtBase (s : State) (n : Nat) : (s.bytesAtBase n).length = n := by
  simp [State.bytesAtBase]

theorem getLsbD_bytesAtBase (s : State) {n r : Nat} (h : r < (s.bytesAtBase n).length) (c : Nat) :
    (s.bytesAtBase n)[r].getLsbD (7 - c) = s.spriteBit r c := by
  simp [State.bytesAtBase, State.spriteBit, State.base]

theorem length_bytesAtBase_le (s : State) (n : Fin 16) : (s.bytesAtBase n.val).length ≤ 32 := by
  rw [length_bytesAtBase]
  omega

/-- A pixel of the framebuffer is covered by a sprite of `n` rows at `(V[x], V[y])`. -/
def State.Covers (s : State) (x y : Reg) (n : Nat) (px : Fin 64) (py : Fin 32) : Prop :=
  ∃ r < n, ∃ c < 8, px = s.screenX x c ∧ py = s.screenY y r

/-- A draw XORs each covered pixel with its sprite bit. -/
theorem read_drawn_at (s : State) (x y : Reg) {n : Fin 16} {r c : Nat} (hr : r < n.val) (hc : c < 8) :
    Framebuffer.read (s.drawn x y n).1 (s.screenX x c) (s.screenY y r) =
      (s.spriteBit r c ^^ Framebuffer.read s.fb (s.screenX x c) (s.screenY y r)) := by
  have hlen : r < (s.bytesAtBase n.val).length := by rwa [length_bytesAtBase]
  rw [← spriteColumn_spriteX, ← spriteRow_spriteY, State.drawn,
    Framebuffer.read_draw_at _ _ _ _ (length_bytesAtBase_le s n) r hlen c hc, getLsbD_bytesAtBase]

/-- A draw leaves every other pixel. -/
theorem read_drawn_other (s : State) (x y : Reg) (n : Fin 16) {px : Fin 64} {py : Fin 32} (h : ¬ s.Covers x y n.val px py) :
    Framebuffer.read (s.drawn x y n).1 px py = Framebuffer.read s.fb px py := by
  refine Framebuffer.read_draw_other _ _ _ _ _ _ fun r hr c hc hcovered => h ⟨r, ?_, c, hc, ?_⟩
  · rwa [length_bytesAtBase] at hr
  · rwa [spriteColumn_spriteX, spriteRow_spriteY] at hcovered

/-- The draw reports a collision exactly where the sprite collides. -/
theorem drawn_collides_iff (s : State) (x y : Reg) (n : Fin 16) : (s.drawn x y n).2 = true ↔ s.Collides x y n.val := by
  rw [State.drawn, Framebuffer.draw_collides_iff _ _ _ _ (length_bytesAtBase_le s n)]
  simp only [getLsbD_bytesAtBase, spriteColumn_spriteX, spriteRow_spriteY, length_bytesAtBase, exists_prop, State.Collides]

theorem flagByte_after_drw (x y : Reg) (n : Fin 16) (s : State) :
    (after (.drw x y n) s).flagByte = if (s.drawn x y n).2 then 1#8 else 0#8 := State.flagByte_setFlag _ _

theorem flagByte_after_drw_eq_one_iff (x y : Reg) (n : Fin 16) (s : State) :
    (after (.drw x y n) s).flagByte = 1#8 ↔ s.Collides x y n.val := by
  rw [flagByte_after_drw, ← drawn_collides_iff]
  cases (s.drawn x y n).2 <;> decide

theorem flagByte_after_drw_eq_zero_iff (x y : Reg) (n : Fin 16) (s : State) :
    (after (.drw x y n) s).flagByte = 0#8 ↔ ¬ s.Collides x y n.val := by
  rw [flagByte_after_drw, ← drawn_collides_iff]
  cases (s.drawn x y n).2 <;> decide

theorem errorOf_drw_above {x y : Reg} {n : Fin 16} {s : State} (hn : 0 < n.val) (h : 0xFFF < s.i.toNat + n.val - 1) :
    errorOf (.drw x y n) s = some (.memoryAddressOutOfRange (s.i.toNat + n.val - 1)) :=
  (if_neg (by omega)).trans (lastByteError_of_above h)

theorem errorOf_drw_none {x y : Reg} {n : Fin 16} {s : State} (h : n.val = 0 ∨ s.i.toNat + n.val - 1 ≤ 0xFFF) :
    errorOf (.drw x y n) s = none := by
  rw [errorOf]
  split
  · rfl
  · exact (lastByteError_none_iff _).2 (h.resolve_left ‹_›)

/-- Settles O52: range, then the laws of the blit, and the flag where it lives. -/
theorem drawXorsTheSprite : Obligations.DrawXorsTheSprite := by
  refine fun x y n s => ⟨fun hn h => exec_fault (errorOf_drw_above hn h), fun h => ?_⟩
  refine ⟨_, exec_completes (errorOf_drw_none h), fun r hr c hc => read_drawn_at s x y hr hc,
    fun px py hno => read_drawn_other s x y n ?_, (flagByte_after_drw_eq_one_iff x y n s).2,
    (flagByte_after_drw_eq_zero_iff x y n s).2, fun k hk => getV_after ?_, flagAliased_after _ s, rfl⟩
  · rintro ⟨r, hr, c, hc, hcovered⟩
    exact hno r hr c hc hcovered
  · simpa [writesV] using hk

/-- Settles O55: without a set pixel or a set sprite bit nothing collides, and a bit that is not set leaves its pixel. -/
theorem blankDrawsDoNotCollide : Obligations.BlankDrawsDoNotCollide := by
  intro x y n s t hexec
  obtain ⟨-, rfl⟩ := exec_next hexec
  refine ⟨fun hblank => (flagByte_after_drw_eq_zero_iff x y n s).2 ?_, fun hblank =>
    ⟨Framebuffer.ext_read _ _ fun px py => ?_, (flagByte_after_drw_eq_zero_iff x y n s).2 ?_⟩⟩
  · rintro ⟨r, -, c, -, -, hpixel⟩
    rw [hblank] at hpixel
    cases hpixel
  · by_cases hcovers : s.Covers x y n.val px py
    · obtain ⟨r, hr, c, hc, rfl, rfl⟩ := hcovers
      exact (read_drawn_at s x y hr hc).trans (by rw [hblank r hr c hc, Bool.false_xor])
    · exact read_drawn_other s x y n hcovers
  · rintro ⟨r, hr, c, hc, hbit, -⟩
    rw [hblank r hr c hc] at hbit
    cases hbit

/-! ## Two draws at the same position -/

theorem screenX_congr {s t : State} {x : Reg} (h : t.spriteX x = s.spriteX x) (c : Nat) : t.screenX x c = s.screenX x c := by
  rw [← spriteColumn_spriteX, h, spriteColumn_spriteX]

theorem screenY_congr {s t : State} {y : Reg} (h : t.spriteY y = s.spriteY y) (r : Nat) : t.screenY y r = s.screenY y r := by
  rw [← spriteRow_spriteY, h, spriteRow_spriteY]

theorem covers_congr {s t : State} {x y : Reg} (hx : t.spriteX x = s.spriteX x) (hy : t.spriteY y = s.spriteY y) (n : Nat)
    (px : Fin 64) (py : Fin 32) : t.Covers x y n px py ↔ s.Covers x y n px py := by
  simp only [State.Covers, screenX_congr hx, screenY_congr hy]

/-- A draw leaves the sprite's bytes. -/
theorem spriteBit_after_drw (x y : Reg) (n : Fin 16) (s : State) (r c : Nat) :
    (after (.drw x y n) s).spriteBit r c = s.spriteBit r c := rfl

theorem fb_after_drw (x y : Reg) (n : Fin 16) (s : State) : (after (.drw x y n) s).fb = (s.drawn x y n).1 := rfl

section
variable {x y : Reg} {n : Fin 16} {s : State} (hx : (after (.drw x y n) s).spriteX x = s.spriteX x)
  (hy : (after (.drw x y n) s).spriteY y = s.spriteY y)
include hx hy

/-- XOR with the sprite twice leaves a covered pixel, and any other pixel was never drawn. -/
theorem fb_after_drw_twice : (after (.drw x y n) (after (.drw x y n) s)).fb = s.fb := by
  refine Framebuffer.ext_read _ _ fun px py => ?_
  rw [fb_after_drw]
  by_cases hcovers : s.Covers x y n.val px py
  · obtain ⟨r, hr, c, hc, rfl, rfl⟩ := hcovers
    rw [← screenX_congr hx, ← screenY_congr hy, read_drawn_at _ x y hr hc, spriteBit_after_drw, screenX_congr hx,
      screenY_congr hy, fb_after_drw, read_drawn_at s x y hr hc, ← Bool.xor_assoc, Bool.xor_self, Bool.false_xor]
  · rw [read_drawn_other _ x y n (mt (covers_congr hx hy _ _ _).1 hcovers), fb_after_drw, read_drawn_other s x y n hcovers]

/-- The second draw meets a set pixel exactly where the first one lit it. -/
theorem collides_after_drw_iff : (after (.drw x y n) s).Collides x y n.val ↔ ∃ r < n.val, ∃ c < 8,
    s.spriteBit r c = true ∧ Framebuffer.read s.fb (s.screenX x c) (s.screenY y r) = false := by
  refine exists_congr fun r => and_congr_right fun hr => exists_congr fun c => and_congr_right fun hc => ?_
  rw [spriteBit_after_drw, screenX_congr hx, screenY_congr hy, fb_after_drw, read_drawn_at s x y hr hc]
  refine and_congr_right fun hbit => ?_
  rw [hbit, Bool.true_xor, Bool.not_eq_true']

end

/-- Settles O53: the second draw undoes the first, and collides where the first lit a pixel. -/
theorem drawTwiceRestores : Obligations.DrawTwiceRestores := by
  intro x y n s t u hfirst hx hy hsecond
  obtain ⟨-, rfl⟩ := exec_next hfirst
  obtain ⟨-, rfl⟩ := exec_next hsecond
  exact ⟨fb_after_drw_twice hx hy, (flagByte_after_drw_eq_one_iff x y n _).trans (collides_after_drw_iff hx hy)⟩

/-- The reset state with every pixel set; its `I` is 0, where the font's first byte is 0xF0. -/
def litState : State := { State.reset with fb := Vector.replicate 64 (Vector.replicate 32 true) }

theorem read_litState (px : Fin 64) (py : Fin 32) : Framebuffer.read litState.fb px py = true := by
  simp [litState, Framebuffer.read, Vector.get_eq_getElem]

/-- Refutes O54: on the lit framebuffer, the first draw of one row of the font's first glyph at the top left erases what it meets, so
the second one, though its sprite has a set bit, meets nothing and reports 0. -/
theorem not_secondDrawAlwaysCollides : ¬ Obligations.SecondDrawAlwaysCollides := by
  intro h
  have hfirst : exec (.drw 0 1 1) litState = .next (after (.drw 0 1 1) litState) := exec_completes (by decide)
  have hsecond := exec_completes (i := .drw 0 1 1) (s := after (.drw 0 1 1) litState) (errorOf_drw_none (.inr (by decide)))
  have hV {k : Reg} (hk : k ≠ 15) : (after (.drw 0 1 1) litState).getV k = litState.getV k :=
    getV_after (by simp [writesV, hk])
  have hx : (after (.drw 0 1 1) litState).spriteX 0 = litState.spriteX 0 := by
    rw [State.spriteX, State.spriteX, hV (by decide)]
  have hy : (after (.drw 0 1 1) litState).spriteY 1 = litState.spriteY 1 := by
    rw [State.spriteY, State.spriteY, hV (by decide)]
  have hflag := (h 0 1 1 litState _ _ hfirst hx hy hsecond).1 ⟨0, by decide, 0, by decide, by decide⟩
  obtain ⟨r, -, c, -, -, hpixel⟩ := (drawTwiceRestores 0 1 1 litState _ _ hfirst hx hy hsecond).2.1 hflag
  rw [read_litState] at hpixel
  cases hpixel

end Sys2Proof.Machine

/-! PROOF of `SkipOnKeys` (R141, R142), `KeyWaitStoresTheDigit` (R143) and `TimerTransfers` (R145 to R147). -/

namespace Sys2Proof.Machine

theorem keyError_of_above {value : Byte} (h : 15 < value.toNat) (quit : Bool) :
    keyError value quit = some (.registerValueOutOfRange value) := by
  rw [keyError, digitError_of_above h]

theorem keyError_of_digit {value : Byte} (h : value.toNat ≤ 15) (quit : Bool) :
    keyError value quit = if quit then some .quitRequested else none := by
  rw [keyError, (digitError_none_iff value).2 h]

/-- Settles O56: range, then quit, then the skip on the sampled bit, for the two wanted values of it. -/
theorem skipOnKeys : Obligations.SkipOnKeys := by
  intro x s k e hsample
  have hskp : exec (.skp x) s = s.skipOnKey x true := rfl
  have hsknp : exec (.sknp x) s = s.skipOnKey x false := rfl
  rw [hskp, hsknp, State.skipOnKey_eq, State.skipOnKey_eq, State.keyDown, hsample]
  refine ⟨fun h => ?_, fun h hquit => ?_, fun h hquit => ?_⟩
  · rw [keyError_of_above h]
    exact ⟨rfl, rfl⟩
  · rw [keyError_of_digit h, if_pos hquit]
    exact ⟨rfl, rfl⟩
  · rw [keyError_of_digit h, if_neg (by simp [hquit]), outcome_none, outcome_none]
    constructor
    · rw [State.skipWhen_eq _ beq_iff_eq]
    · rw [State.skipWhen_eq _ (beq_iff_eq.trans (Bool.not_eq_true _).symm.to_iff), ite_not]

/-- Settles O57: the sentinel is the one error, and a digit below 16 fits a byte. -/
theorem keyWaitStoresTheDigit : Obligations.KeyWaitStoresTheDigit := by
  refine fun x s e => ⟨fun hanswer => exec_fault ?_, fun d hanswer => ?_⟩
  · rw [errorOf, hanswer]
    rfl
  · have hnone : errorOf (.ldVxK x) s = none := by
      rw [errorOf, hanswer]
      rfl
    refine ⟨_, exec_completes hnone, ?_, fun k hk => ?_, ?_⟩
    · have hval : (after (.ldVxK x) s).getV x = BitVec.ofNat 8 d.val := by
        rw [after, hanswer]
        exact (State.getV_setV _ x x _).trans (if_pos rfl)
      rw [hval, BitVec.toNat_ofNat]
      omega
    · exact getV_after (by simpa [writesV] using hk)
    · rw [after, hanswer]
      rfl

/-- Settles O58: a result in `V[x]`, and the two timers set from it. -/
theorem timerTransfers : Obligations.TimerTransfers :=
  fun x s => ⟨s.result_sameButRegPc x s.dt, rfl, rfl⟩

end Sys2Proof.Machine
